-- ==== Sys2Proof/Word.lean ====
section
/-! DEFINITION. The words of the aes-mod CORE: registers of 32 bits, bytes, byte sequences and the
fixed-length sequences (Block, Key, half block) that rules R11 and R12 name. -/

namespace Sys2Proof

/-- The contents of one register of the REG space: `REGW = 32` bits (rule R8). -/
abbrev Word := BitVec 32

/-- A byte: 8 bits, a natural number in `[0, 255]` (rule R11). -/
abbrev Byte := BitVec 8

/-- A byte sequence, index 0 first (rule R12). -/
abbrev Bytes := List Byte

/-- A byte sequence of length exactly `n` (rule R12). -/
abbrev ByteVec (n : Nat) := Vector Byte n

/-- A Block: a byte sequence of length exactly `B = 16` (rules R7, R12). -/
abbrev Block := ByteVec 16

/-- A Key: a byte sequence of length exactly `B = 16` (rules R7, R12, R17). -/
abbrev Key := ByteVec 16

/-- Half a Block, 8 bytes: the CTR nonce, and the CTR counter (rules R7, R140). -/
abbrev Half := ByteVec 8

end Sys2Proof
end

