-- ==== Sys2Proof/Syntax.lean ====
section
/-! DEFINITION. The ten operations of rule R72, one constructor for each row of the opcode table.
No operation has an operand field (rule R70), so no constructor has an argument. -/

namespace Sys2Proof

/-- The host-commanded operations (rules R2, R72). -/
inductive Instr where
  /-- `PAD`, command word `0x00000002` (rule R101). -/
  | pad
  /-- `UNPAD`, command word `0x00000003` (rule R103). -/
  | unpad
  /-- `XOR`, command word `0x00000004` (rule R161). -/
  | xor
  /-- `INC`, command word `0x00000005` (rule R163). -/
  | inc
  /-- `ECB_ENC`, command word `0x00000008` (rule R120). -/
  | ecbEnc
  /-- `ECB_DEC`, command word `0x00000009` (rule R122). -/
  | ecbDec
  /-- `CBC_ENC`, command word `0x0000000A` (rule R131). -/
  | cbcEnc
  /-- `CBC_DEC`, command word `0x0000000B` (rule R133). -/
  | cbcDec
  /-- `CTR_ENC`, command word `0x0000000C` (rule R143). -/
  | ctrEnc
  /-- `CTR_DEC`, command word `0x0000000D` (rule R145). -/
  | ctrDec
deriving DecidableEq, Repr

/-- Every operation, in the order of the opcode table (rule R72). -/
def Instr.all : List Instr :=
  [.pad, .unpad, .xor, .inc, .ecbEnc, .ecbDec, .cbcEnc, .cbcDec, .ctrEnc, .ctrDec]

/-- The six mode operations, which use the key (rules R18, R71); the other four are the utility
operations. -/
def Instr.isMode : Instr → Bool
  | .pad => false
  | .unpad => false
  | .xor => false
  | .inc => false
  | .ecbEnc => true
  | .ecbDec => true
  | .cbcEnc => true
  | .cbcDec => true
  | .ctrEnc => true
  | .ctrDec => true

end Sys2Proof
end

