-- ==== Sys2Proof/WellFormed.lean ====
section
/-! DEFINITION. Well-formedness: of an operation, of a command word, and of the parameter `CAP`. -/

namespace Sys2Proof

/-- An operation has no operand field (rule R70), so there is nothing to check: each of the ten is
well-formed. -/
def Instr.wellFormed : Instr → Bool
  | .pad => true
  | .unpad => true
  | .xor => true
  | .inc => true
  | .ecbEnc => true
  | .ecbDec => true
  | .cbcEnc => true
  | .cbcDec => true
  | .ctrEnc => true
  | .ctrDec => true

/-- The check of field `ZERO`, bits 31:4 of a command word: it must be 0 (rule R70). -/
def zeroFieldOk (w : Word) : Bool := w.toNat / 16 == 0

/-- The check of field `OP`, bits 3:0 of a command word: one of the ten values of rule R72. -/
def opFieldOk (w : Word) : Bool :=
  [0x2, 0x3, 0x4, 0x5, 0x8, 0x9, 0xA, 0xB, 0xC, 0xD].contains (w.toNat % 16)

/-- A command word is well-formed when it is not reserved (rule R73). -/
def wellFormedWord (w : Word) : Bool := zeroFieldOk w && opFieldOk w

/-- The admissible values of the parameter `CAP` (rule R8): a multiple of 16 between 1024 and
`2^31`. -/
def admissibleCap (n : Nat) : Bool := n % 16 == 0 && 1024 ≤ n && n ≤ 2 ^ 31

end Sys2Proof
end

