-- ==== Sys2Proof/Config.lean ====
section
/-! DEFINITION. What an implementation fixes and what the spec leaves open: the capacity `CAP`, the
block cipher primitive `E`, `D` and the answers of the random source. Each is an opaque constant, so a
statement about the machine holds for every admissible value of it (rules R8, R9, R10). -/

namespace Sys2Proof

/-- The contract of the block cipher primitive (rule R10): two total, deterministic functions on Blocks
and Keys, with `D(E(x,k),k) = x` for all `x`, `k`, and nothing more. The default values of the fields
only show that such a pair exists; no constant of the model takes them. -/
structure Cipher where
  /-- `E(x, k)`, "encrypt_block". -/
  enc : Block → Key → Block := fun x _ => x
  /-- `D(y, k)`, "decrypt_block". -/
  dec : Block → Key → Block := fun y _ => y
  /-- "`decrypt_block(encrypt_block(x,k),k) == x` for all `x,k`". -/
  dec_enc : ∀ x k, dec (enc x k) k = x := by intros; rfl
deriving Inhabited

/-- The primitive the engine is built with: any pair that meets the contract (rule R10; assumption
log 1). -/
opaque Config.cipher : Cipher

/-- The free number from which the capacity is formed (rule R8; assumption log 2). -/
opaque Config.capChoice : Nat

/-- The parameter `CAP`: the capacity in bytes of `IN` and of `OUT` (rule R8). As `Config.capChoice`
runs over the naturals this runs over exactly the admissible values: the multiples of 16 from 1024 to
`2^31`. -/
@[irreducible] def Config.cap : Nat := Config.capChoice % (2 ^ 27 - 63) * 16 + 1024

/-- The random source `rand(n)` (rule R9): `Config.rand d n` is the answer of `n` bytes to the request
number `d`. Nothing is assumed of the bytes (rule R212; assumption log 3). -/
opaque Config.rand (d n : Nat) : ByteVec n

end Sys2Proof
end

