-- ==== Sys2Proof/Decode.lean ====
section
/-! DEFINITION. The decoder of the 32-bit command word (rules R70 to R74), total and refusing by name,
and the encoder written from the same table. -/

namespace Sys2Proof

/-- Why a command word is reserved (rule R73). -/
inductive DecodeError where
  /-- Field `ZERO`, bits 31:4, is not 0. -/
  | zeroFieldNotZero
  /-- Field `OP`, bits 3:0, is one of `0x0`, `0x1`, `0x6`, `0x7`, `0xE`, `0xF`. -/
  | reservedOp
deriving DecidableEq, Repr

/-- Field `OP`, bits 3:0 of the command word (rule R70). -/
def opField (w : Word) : BitVec 4 := w.extractLsb' 0 4

/-- Field `ZERO`, bits 31:4 of the command word (rule R70). -/
def zeroField (w : Word) : BitVec 28 := w.extractLsb' 4 28

/-- The operation an `OP` value stands for, rule R72; the six other values are reserved, rule R73. -/
def decodeOp (op : BitVec 4) : Except DecodeError Instr :=
  match op.toNat with
  | 0x2 => .ok .pad
  | 0x3 => .ok .unpad
  | 0x4 => .ok .xor
  | 0x5 => .ok .inc
  | 0x8 => .ok .ecbEnc
  | 0x9 => .ok .ecbDec
  | 0xA => .ok .cbcEnc
  | 0xB => .ok .cbcDec
  | 0xC => .ok .ctrEnc
  | 0xD => .ok .ctrDec
  | _ => .error .reservedOp

/-- The decoder, total over all `2^32` words (rules R72, R73): the checks in the order of rule R78. -/
def decode (w : Word) : Except DecodeError Instr :=
  if zeroField w ≠ 0 then .error .zeroFieldNotZero else decodeOp (opField w)

/-- The `OP` value of an operation (rule R72). -/
def encodeOp : Instr → BitVec 4
  | .pad => 0x2
  | .unpad => 0x3
  | .xor => 0x4
  | .inc => 0x5
  | .ecbEnc => 0x8
  | .ecbDec => 0x9
  | .cbcEnc => 0xA
  | .cbcDec => 0xB
  | .ctrEnc => 0xC
  | .ctrDec => 0xD

/-- The encoder: the one command word of an operation, `ZERO` above `OP` (rules R70, R72). -/
def encode (i : Instr) : Word := (0 : BitVec 28) ++ encodeOp i

/-- The column "match" of rule R72, as the table prints it. -/
def matchWord : Instr → Word
  | .pad => 0x00000002
  | .unpad => 0x00000003
  | .xor => 0x00000004
  | .inc => 0x00000005
  | .ecbEnc => 0x00000008
  | .ecbDec => 0x00000009
  | .cbcEnc => 0x0000000A
  | .cbcDec => 0x0000000B
  | .ctrEnc => 0x0000000C
  | .ctrDec => 0x0000000D

/-- The column "mask" of rule R72: every row's mask. -/
def maskWord : Word := 0xFFFFFFFF

/-- The command word whose low `nbits` bits are those of `w` and whose other bits are 0. -/
def tableWord (nbits w : Nat) : Nat := w % 2 ^ nbits

/-- The operation the decoder reads from the instruction whose bits are `w`, `nbits` of them given by
the opcode table, the rest 0. A command word has 32 bits (rule R70); a longer number is no command
word. -/
def decodeTableWord (nbits w : Nat) : Option Instr :=
  if tableWord nbits w < 2 ^ 32 then (decode (BitVec.ofNat 32 (tableWord nbits w))).toOption else none

end Sys2Proof
end

