-- ==== Sys2Proof/Machine/State.lean ====
section
/-! DEFINITION. The state of the machine as plain data: the whole architectural state of rule R20, and
the model's own fields for the random source's draws and for the host as the other agent. The error
kinds, the reasons a step could stop, and the state after reset. -/

namespace Sys2Proof.Machine

/-- The contents of one byte buffer (rule R50): address and byte pairs in the canonical form
`Memory.wf`. An unlisted address reads as `0x00`, the reset contents of rule R40. -/
abbrev Memory := List Host.Cell

/-- The three buffer spaces of rule R50. The fourth space, REG, is reached by register number. -/
inductive Space where
  /-- `KEY`, 16 bytes, the host's key (rule R22). -/
  | key
  /-- `IN`, `CAP` bytes, the operand (rule R23). -/
  | inp
  /-- `OUT`, `CAP` bytes, the result (rule R24). -/
  | out
deriving DecidableEq, Repr

/-- One host access (rules R52 to R55); each is atomic (rule R56). -/
inductive Access where
  /-- `RegRead(r)`, rule R52. -/
  | regRead (r : Nat)
  /-- `RegWrite(r, v)`, rule R53. -/
  | regWrite (r : Nat) (v : Word)
  /-- `BufRead(S, i)`, rule R54. -/
  | bufRead (sp : Space) (i : Nat)
  /-- `BufWrite(S, i, b)`, rule R55. -/
  | bufWrite (sp : Space) (i : Nat) (b : Byte)
deriving DecidableEq, Repr

/-- One event of the total order of rule R63: a host access, the engine's completion step, or a
reset. -/
inductive Event where
  /-- The host makes one access. -/
  | host (a : Access)
  /-- The engine is given its turn (rule R79). -/
  | engine
  /-- The reset event (rule R200). -/
  | reset
deriving DecidableEq, Repr

/-- What a host read returns: a register's 32-bit value (rule R52) or a buffer's byte (rule R54). -/
inductive Reply where
  | reg (v : Word)
  | byte (b : Byte)
deriving DecidableEq, Repr

/-- The seven error kinds of rule R170. -/
inductive ErrorKind where
  /-- Code 1 (rule R171). -/
  | invalidKeyLength
  /-- Code 2 (rule R172). -/
  | invalidCiphertextLength
  /-- Code 3 (rule R173). -/
  | ciphertextTooShort
  /-- Code 4 (rule R174). -/
  | invalidPadding
  /-- Code 5 (rule R181). -/
  | invalidLength
  /-- Code 6 (rule R178). -/
  | illegalOperation
  /-- Code 7 (rule R177). -/
  | capacityExceeded
deriving DecidableEq, Repr

/-- What an operation's function returns: `Ok(bytes)` or `Err(kind)` (rule R13). -/
abbrev Result := Except ErrorKind Bytes

/-- The state. The first eight fields are the architectural state, exactly the table of rule R20; `CMD`
(register 0) and `CAPACITY` (register 5) hold none. The last three are the model's own. -/
structure State where
  /-- `STATUS`, register 1 (rule R26). -/
  status : Word
  /-- `IN_LEN`, register 2 (rule R28). -/
  inLen : Word
  /-- `OUT_LEN`, register 3 (rule R29). -/
  outLen : Word
  /-- `KEY_LEN`, register 4 (rule R30). -/
  keyLen : Word
  /-- `KEY`, 16 bytes (rule R22). -/
  keyBuf : Memory
  /-- `IN`, `CAP` bytes (rule R23). -/
  inBuf : Memory
  /-- `OUT`, `CAP` bytes (rule R24). -/
  outBuf : Memory
  /-- `CMDLATCH`, the internal latch (rule R33). -/
  cmdLatch : Word
  /-- The MODEL's own: how many requests the random source has answered, which numbers its next
  answer (rule R9; assumption log 3). -/
  draws : Nat
  /-- The MODEL's own: the events still to come in the total order of rule R63, which says which agent
  moves next (assumption log 4). -/
  schedule : List Event
  /-- The MODEL's own: what the host's reads have returned to it, the latest first (assumption
  log 5). -/
  replies : List Reply
deriving DecidableEq, Repr

/-- The reasons for which the machine could stop with a fault: none. "No trap, hang or undefined
result" (rule R187): every error is a way for an operation to complete. The type has no constructor, so
nothing raises a fault and there is nothing safe or unsafe to say of one. -/
inductive Fault
deriving DecidableEq, Repr

/-- The reasons for which the model could refuse. -/
inductive Refusal where
  /-- An instruction without a meaning yet, by its mnemonic. Nothing raises it: every operation of the
  opcode table has its meaning. It would be safe: a refusal only leaves claims unprovable. -/
  | notModelled (mnemonic : String)
deriving DecidableEq, Repr

/-- The state after reset (rule R40): every register and the latch 0, every byte of every buffer
`0x00`. The model's own fields start with no draw taken, no event placed and no reply given (assumption
logs 3, 4, 5). -/
def State.reset : State where
  status := 0
  inLen := 0
  outLen := 0
  keyLen := 0
  keyBuf := []
  inBuf := []
  outBuf := []
  cmdLatch := 0
  draws := 0
  schedule := []
  replies := []

end Sys2Proof.Machine
end

