-- ==== Sys2Proof/Machine/Flags.lean ====
section
/-! DEFINITION. The flags: the fields of `STATUS` (rule R26), the codes of the error kinds (rule R170),
and the words that acceptance and completion write (rules R77, R79). -/

namespace Sys2Proof.Machine

/-- The code of an error kind, the value of `STATUS.ERRCODE` (rule R170). -/
def ErrorKind.code : ErrorKind → Nat
  | .invalidKeyLength => 1
  | .invalidCiphertextLength => 2
  | .ciphertextTooShort => 3
  | .invalidPadding => 4
  | .invalidLength => 5
  | .illegalOperation => 6
  | .capacityExceeded => 7

/-- `STATUS.BUSY`, bit 0 (rule R26). -/
def State.busy (s : State) : Bool := s.status.getLsbD 0

/-- `STATUS.DONE`, bit 1 (rule R26). -/
def State.done (s : State) : Bool := s.status.getLsbD 1

/-- `STATUS.ERROR`, bit 2 (rule R26). -/
def State.error (s : State) : Bool := s.status.getLsbD 2

/-- `STATUS.ERRCODE`, bits 11:8 (rule R26). -/
def State.errCode (s : State) : BitVec 4 := s.status.extractLsb' 8 4

/-- `STATUS` while an operation is in progress: `BUSY` = 1, all else 0 (rule R77). -/
def statusBusy : Word := 0x00000001

/-- `STATUS` after a completion `Ok`: `DONE` (rule R79). -/
def statusDone : Word := 0x00000002

/-- `STATUS` after a completion `Err(K)`: `DONE`, `ERROR` and `ERRCODE = code(K)` (rule R79). -/
def statusError (K : ErrorKind) : Word := BitVec.ofNat 32 (0x00000006 + 0x100 * K.code)

/-- The shapes `STATUS` takes (rule R27): idle after reset, busy, done without error, done with an error
of code 1 to 7. -/
def statusLegal (w : Word) : Bool :=
  w == 0 || w == statusBusy || w == statusDone ||
    [1, 2, 3, 4, 5, 6, 7].any fun code => w == BitVec.ofNat 32 (0x00000006 + 0x100 * code)

end Sys2Proof.Machine
end

