-- ==== Sys2Proof/Machine/Ops.lean ====
section
/-! DEFINITION. The named operations: byte sequences (rule R12), the byte buffers in canonical form, the
host access primitives (rules R52 to R55), acceptance (rule R77), completion with a result or with an
error (rule R79), the draw (rule R9) and the reset event (rule R200). -/

namespace Sys2Proof.Machine

/-! ### Byte sequences (rule R12) -/

/-- `rep(v, n)`: `n` bytes each equal to `v`. -/
def rep (v : Byte) (n : Nat) : Bytes := List.replicate n v

/-- `zeros(n) = rep(0x00, n)`. -/
def zeros (n : Nat) : Bytes := rep 0 n

/-- `s[a..a+n)` as a sequence of exactly `n` bytes. It is used only where `a + n` does not exceed the
length of `s`, so the default of `getD` never shows. -/
def bytesAt (n : Nat) (s : Bytes) (a : Nat) : ByteVec n := Vector.ofFn fun j => s.getD (a + j.val) 0

/-! ### Buffers -/

/-- The byte at an address; an unlisted address reads as `0x00` (rule R40). -/
def Memory.read : Memory → Nat → Byte
  | [], _ => 0
  | (a', b) :: m, a => if a' = a then b else Memory.read m a

/-- Store one byte, keeping the canonical form: a byte `0x00` is not listed. -/
def Memory.write : Memory → Nat → Byte → Memory
  | [], a, b => if b = 0 then [] else [(a, b)]
  | (a', b') :: m, a, b =>
    if a < a' then (if b = 0 then (a', b') :: m else (a, b) :: (a', b') :: m)
    else if a = a' then (if b = 0 then m else (a, b) :: m)
    else (a', b') :: Memory.write m a b

/-- The buffer that holds the bytes `l` from address `base` on and `0x00` everywhere else. -/
def Memory.ofBytes : Nat → Bytes → Memory
  | _, [] => []
  | base, b :: l =>
    if b = 0 then Memory.ofBytes (base + 1) l else (base, b) :: Memory.ofBytes (base + 1) l

/-- The first `n` bytes of a buffer, `S[0..n)` (rule R59: sequence index equals buffer index). -/
def Memory.firstBytes (m : Memory) (n : Nat) : Bytes := (List.range n).map m.read

/-- The canonical form above a lower bound: addresses strictly rising from `lo`, no byte `0x00`
listed. -/
def Memory.wfFrom : Nat → Memory → Bool
  | _, [] => true
  | lo, (a, b) :: m => decide (lo ≤ a) && b != 0 && Memory.wfFrom (a + 1) m

/-- The canonical form: addresses strictly rising and no entry equal to what an unlisted address reads
as. -/
def Memory.wf (m : Memory) : Bool := Memory.wfFrom 0 m

/-- Every listed address is below `size`. -/
def Memory.within : Memory → Nat → Bool
  | [], _ => true
  | (a, _) :: m, size => decide (a < size) && Memory.within m size

/-- The number of bytes of a buffer space (rule R50). -/
def Space.size : Space → Nat
  | .key => 16
  | .inp => Config.cap
  | .out => Config.cap

/-- The contents of a buffer space. -/
def State.buf (s : State) : Space → Memory
  | .key => s.keyBuf
  | .inp => s.inBuf
  | .out => s.outBuf

/-! ### Acceptance and completion -/

/-- Acceptance of the command word `w` (rule R77, the branch `BUSY = 0`): latch it, clear the result and
the status of the previous operation, and become busy. -/
def State.accept (s : State) (w : Word) : State :=
  { s with cmdLatch := w, outBuf := [], outLen := 0, status := statusBusy }

/-- A write of `w` to `CMD` (rule R77): dropped while busy, else accepted, reserved words too. -/
def State.command (s : State) (w : Word) : State := if s.busy then s else s.accept w

/-- Completion with `Ok(out)` (rule R79): `OUT` is `out` and then `0x00`, `OUT_LEN` its length,
`STATUS` done. -/
def State.completeOk (s : State) (out : Bytes) : State :=
  { s with
    outBuf := Memory.ofBytes 0 out
    outLen := BitVec.ofNat 32 out.length
    status := statusDone }

/-- Completion with `Err(K)` (rules R79, R175, R176), the one way this hardware takes an error: `OUT`
cleared, `OUT_LEN` 0, `STATUS` done with the error's code. Control goes nowhere (rule R182). -/
def State.completeErr (s : State) (K : ErrorKind) : State :=
  { s with outBuf := [], outLen := 0, status := statusError K }

/-- Completion with an operation's result (rule R79). -/
def State.complete (s : State) : Result → State
  | .ok out => s.completeOk out
  | .error K => s.completeErr K

/-- The random source is asked once, for `n` bytes (rule R9): its answer, and the state in which that
request has been answered. -/
def State.draw (s : State) (n : Nat) : ByteVec n × State :=
  (Config.rand s.draws n, { s with draws := s.draws + 1 })

/-! ### Host access primitives -/

/-- `RegRead(r)` (rules R25 to R32, R52): the value, and no effect. -/
def State.regRead (s : State) : Nat → Word
  | 0 => 0
  | 1 => s.status
  | 2 => s.inLen
  | 3 => s.outLen
  | 4 => s.keyLen
  | 5 => BitVec.ofNat 32 Config.cap
  | _ => 0

/-- `RegWrite(r, v)` (rules R25 to R32, R53): a write of `CMD` commands; while busy every other write is
dropped (rule R58); `IN_LEN` and `KEY_LEN` store the value; the rest is read only or absent. -/
def State.regWrite (s : State) (r : Nat) (v : Word) : State :=
  match r with
  | 0 => s.command v
  | 2 => if s.busy then s else { s with inLen := v }
  | 4 => if s.busy then s else { s with keyLen := v }
  | _ => s

/-- `BufRead(S, i)` (rule R54): the byte at a valid index, else `0x00`. -/
def State.bufRead (s : State) (sp : Space) (i : Nat) : Byte :=
  if i < sp.size then (s.buf sp).read i else 0

/-- `BufWrite(S, i, b)` (rule R55): dropped while busy (rule R58), at an index out of range, and to
`OUT`. -/
def State.bufWrite (s : State) (sp : Space) (i : Nat) (b : Byte) : State :=
  if s.busy then s
  else match sp with
    | .key => if i ≤ 15 then { s with keyBuf := s.keyBuf.write i b } else s
    | .inp => if i ≤ Config.cap - 1 then { s with inBuf := s.inBuf.write i b } else s
    | .out => s

/-- One host access; a read hands its value to the host. -/
def State.access (s : State) : Access → State
  | .regRead r => { s with replies := .reg (s.regRead r) :: s.replies }
  | .regWrite r v => s.regWrite r v
  | .bufRead sp i => { s with replies := .byte (s.bufRead sp i) :: s.replies }
  | .bufWrite sp i b => s.bufWrite sp i b

/-- The reset event (rules R200 to R202), possible in any state: every piece of the architectural state
at its reset value, so a pending operation is abandoned. The random source is not restarted and no draw
is taken; the host keeps its own future accesses and what it has read. -/
def State.resetEvent (s : State) : State :=
  { State.reset with draws := s.draws, schedule := s.schedule, replies := s.replies }

end Sys2Proof.Machine
end

