-- ==== Sys2Proof/Machine/Blockifier.lean ====
section
/-! DEFINITION. The blockifier (rules R110 to R112), internal functions of the mode transforms. -/

namespace Sys2Proof.Machine

/-- `group(data)` (rule R110): the Blocks `data[16j .. 16j+16)` in order, or `InvalidLength`. -/
def group (data : Bytes) : Except ErrorKind (List Block) :=
  if data.length % 16 ≠ 0 then .error .invalidLength
  else .ok ((List.range (data.length / 16)).map fun j => bytesAt 16 data (16 * j))

/-- `ungroup(blocks)` (rule R111): the Blocks one after another. -/
def ungroup (blocks : List Block) : Bytes := blocks.flatMap Vector.toList

end Sys2Proof.Machine
end

