-- ==== Sys2Proof/Machine/Operands.lean ====
section
/-! DEFINITION. The operand forms: the operand `IN[0..IN_LEN)`, the key, the capacity function of rule
R80 and the checks that come before an operation's own (rules R78, R179). -/

namespace Sys2Proof.Machine

/-- `n`, the length in bytes of the operand: the value of `IN_LEN` (rule R28). -/
def State.operandLen (s : State) : Nat := s.inLen.toNat

/-- The operand `IN[0..IN_LEN)` (rule R23). -/
def State.operand (s : State) : Bytes := s.inBuf.firstBytes s.operandLen

/-- The Key `KEY[0..16)` (rule R22). -/
def State.key (s : State) : Key := Vector.ofFn fun j => s.keyBuf.read j.val

/-- `p`, the padded length: the least multiple of 16 strictly greater than `n` (rules R76, R80). -/
def paddedLen (n : Nat) : Nat := n + (16 - n % 16)

/-- `NeedOut(op, n)` (rule R80), on natural numbers, with no wrap. -/
def needOut (i : Instr) (n : Nat) : Nat :=
  match i with
  | .pad => paddedLen n
  | .ecbEnc => paddedLen n
  | .cbcEnc => paddedLen n + 16
  | .ctrEnc => paddedLen n + 16
  | .xor => 16
  | .inc => 8
  | .unpad => n
  | .ecbDec => n
  | .cbcDec => n
  | .ctrDec => n

/-- The capacity check (rules R78, R177): the operand or the result does not fit `cap`. -/
def exceedsCap (cap : Nat) (i : Instr) (n : Nat) : Bool :=
  decide (cap < n) || decide (cap < needOut i n)

/-- The operand of a utility operation, after the common check (rules R78, R179): it takes no key. -/
def State.utilityOperand (s : State) (i : Instr) : Result :=
  if exceedsCap Config.cap i s.operandLen then .error .capacityExceeded else .ok s.operand

/-- The operand and the key of a mode operation, after the common checks in their order: capacity, then
`KEY_LEN = 16`, compared as a whole 32-bit number (rules R78, R171, R179). -/
def State.modeOperand (s : State) (i : Instr) : Except ErrorKind (Bytes × Key) :=
  if exceedsCap Config.cap i s.operandLen then .error .capacityExceeded
  else if s.keyLen ≠ 16 then .error .invalidKeyLength
  else .ok (s.operand, s.key)

/-- Run a utility operation: its checks, its function on the operand, completion with the result (rules
R78, R79). -/
def State.runUtility (s : State) (i : Instr) (f : Bytes → Result) : State :=
  match s.utilityOperand i with
  | .error K => s.completeErr K
  | .ok data => s.complete (f data)

/-- Run a mode operation that takes no draw (rules R78, R79). -/
def State.runMode (s : State) (i : Instr) (f : Bytes → Key → Result) : State :=
  match s.modeOperand i with
  | .error K => s.completeErr K
  | .ok (data, key) => s.complete (f data key)

/-- Run a mode operation that takes one draw of `n` bytes, and takes it only after the checks have
passed (rules R78, R79, R81). -/
def State.runModeDraw (s : State) (i : Instr) (n : Nat) (f : Bytes → Key → ByteVec n → Result) :
    State :=
  match s.modeOperand i with
  | .error K => s.completeErr K
  | .ok (data, key) => (s.draw n).2.complete (f data key (s.draw n).1)

end Sys2Proof.Machine
end

