-- ==== Sys2Proof/Machine/Padding.lean ====
section
/-! DEFINITION. Padding and unpadding (rules R100 to R106): the functions `pad`, `unpad` and the
operations PAD and UNPAD. -/

namespace Sys2Proof.Machine

/-- `k = 16 - (len(data) mod 16)`, always in `[1, 16]` (rule R100). -/
def padCount (data : Bytes) : Nat := 16 - data.length % 16

/-- `pad(data)` (rule R100): append `k` bytes each of value `k`. -/
def pad (data : Bytes) : Bytes := data ++ rep (BitVec.ofNat 8 (padCount data)) (padCount data)

/-- `unpad(data)` (rule R102): all of the last `k` bytes must equal the last one, whose value is `k`, in
`[1, 16]` and not above the length; they are removed. -/
def unpad (data : Bytes) : Result :=
  match data.getLast? with
  | none => .error .invalidPadding
  | some last =>
    if last.toNat = 0 ∨ 16 < last.toNat then .error .invalidPadding
    else if data.length < last.toNat then .error .invalidPadding
    else if (data.drop (data.length - last.toNat)).all (· == last) then
      .ok (data.take (data.length - last.toNat))
    else .error .invalidPadding

/-- `Pad_op(data)` (rule R101). -/
def padOp (data : Bytes) : Result := .ok (pad data)

/-- `Unpad_op(data)` (rule R103). -/
def unpadOp (data : Bytes) : Result := unpad data

/-- `PAD` (rule R101). -/
def execPad (s : State) : Host.Outcome State Fault Refusal := .next (s.runUtility .pad padOp)

/-- `UNPAD` (rule R103). -/
def execUnpad (s : State) : Host.Outcome State Fault Refusal := .next (s.runUtility .unpad unpadOp)

end Sys2Proof.Machine
end

