-- ==== Sys2Proof/Machine/XorCounter.lean ====
section
/-! DEFINITION. Block XOR and the counter increment (rules R160 to R164): the functions `xor`, `inc` and
the operations XOR and INC. -/

namespace Sys2Proof.Machine

/-- `xor(a, b)` (rule R160): byte-wise exclusive or of two Blocks. -/
def xorBlock (a b : Block) : Block := Vector.ofFn fun j => a[j] ^^^ b[j]

/-- `be64(c)` (rule R14): an 8-byte sequence as a number, `c[0]` most significant. -/
def be64 (c : Half) : Nat := c.toList.foldl (fun acc b => acc * 256 + b.toNat) 0

/-- `be64inv(v)` (rule R14): the 8 bytes of a number below `2^64`, most significant first. -/
def be64inv (v : Nat) : Half := Vector.ofFn fun j => BitVec.ofNat 8 (v / 256 ^ (7 - j.val))

/-- `inc(c)` (rule R162): the big-endian counter plus one, wrapping silently modulo `2^64`. -/
def inc (c : Half) : Half := be64inv ((be64 c + 1) % 2 ^ 64)

/-- `Xor_op(data)` (rule R161). -/
def xorOp (data : Bytes) : Result :=
  if data.length ≠ 32 then .error .invalidLength
  else .ok (xorBlock (bytesAt 16 data 0) (bytesAt 16 data 16)).toList

/-- `Inc_op(data)` (rule R163). -/
def incOp (data : Bytes) : Result :=
  if data.length ≠ 8 then .error .invalidLength
  else .ok (inc (bytesAt 8 data 0)).toList

/-- `XOR` (rule R161). -/
def execXor (s : State) : Host.Outcome State Fault Refusal := .next (s.runUtility .xor xorOp)

/-- `INC` (rule R163). -/
def execInc (s : State) : Host.Outcome State Fault Refusal := .next (s.runUtility .inc incOp)

end Sys2Proof.Machine
end

