-- ==== Sys2Proof/Machine/Cbc.lean ====
section
/-! DEFINITION. CBC mode (rules R130 to R136): the operations CBC_ENC and CBC_DEC. -/

namespace Sys2Proof.Machine

/-- The encryption loop of rule R131; the first Block argument is `previous` (rule R130), which becomes
each block's ciphertext. -/
def cbcEncLoop (c : Cipher) (key : Key) : Block → List Block → List Block
  | _, [] => []
  | previous, p :: ps =>
    c.enc (xorBlock p previous) key :: cbcEncLoop c key (c.enc (xorBlock p previous) key) ps

/-- The decryption loop of rule R133; `previous` becomes each block's ciphertext. -/
def cbcDecLoop (c : Cipher) (key : Key) : Block → List Block → List Block
  | _, [] => []
  | previous, y :: ys => xorBlock (c.dec y key) previous :: cbcDecLoop c key y ys

/-- `CbcEnc(plaintext, key, iv)` (rule R131). -/
def cbcEnc (c : Cipher) (plaintext : Bytes) (key : Key) (iv : Block) : Result := do
  let P ← group (pad plaintext)
  return iv.toList ++ ungroup (cbcEncLoop c key iv P)

/-- `CbcDec(data, key)` (rule R133): the IV is the first block of the operand, and the too-short check
comes first. -/
def cbcDec (c : Cipher) (data : Bytes) (key : Key) : Result :=
  if data.length < 32 then .error .ciphertextTooShort
  else if data.length % 16 ≠ 0 then .error .invalidCiphertextLength
  else do
    let blocks ← group data
    unpad (ungroup (cbcDecLoop c key (bytesAt 16 data 0) (blocks.drop 1)))

/-- `CBC_ENC` (rule R131), with a draw of 16 bytes as the IV. -/
def execCbcEnc (s : State) : Host.Outcome State Fault Refusal :=
  .next (s.runModeDraw .cbcEnc 16 (cbcEnc Config.cipher))

/-- `CBC_DEC` (rule R133). -/
def execCbcDec (s : State) : Host.Outcome State Fault Refusal :=
  .next (s.runMode .cbcDec (cbcDec Config.cipher))

end Sys2Proof.Machine
end

