-- ==== Sys2Proof/Machine/Ctr.lean ====
section
/-! DEFINITION. CTR mode (rules R140 to R151): the operations CTR_ENC and CTR_DEC. -/

namespace Sys2Proof.Machine

/-- The counter block `V = nonce ‖ counter` (rules R60, R142): the nonce first, the counter last. -/
def counterBlock (nonce counter : Half) : Block := nonce ++ counter

/-- `zeros(8)`, the counter at the start of every message (rule R140). -/
def counterZero : Half := Vector.replicate 8 0

/-- The loop of rules R143 and R145, the same in both directions: each block is xored with the
encryption `E`, never `D`, of its counter block, and the counter is incremented. -/
def ctrLoop (c : Cipher) (key : Key) (nonce : Half) : Half → List Block → List Block
  | _, [] => []
  | counter, x :: xs =>
    xorBlock x (c.enc (counterBlock nonce counter) key) :: ctrLoop c key nonce (inc counter) xs

/-- `CtrEnc(plaintext, key, nonce)` (rule R143); the first block of the result is the nonce and eight
bytes `0x00` (rule R141). -/
def ctrEnc (c : Cipher) (plaintext : Bytes) (key : Key) (nonce : Half) : Result := do
  let P ← group (pad plaintext)
  return nonce.toList ++ zeros 8 ++ ungroup (ctrLoop c key nonce counterZero P)

/-- `CtrDec(data, key)` (rule R145): the nonce is bytes 0 to 7 of the operand; bytes 8 to 15 are ignored
(rule R146). -/
def ctrDec (c : Cipher) (data : Bytes) (key : Key) : Result :=
  if data.length < 32 then .error .ciphertextTooShort
  else if data.length % 16 ≠ 0 then .error .invalidCiphertextLength
  else do
    let blocks ← group data
    unpad (ungroup (ctrLoop c key (bytesAt 8 data 0) counterZero (blocks.drop 1)))

/-- `CTR_ENC` (rule R143), with a draw of 8 bytes as the nonce. -/
def execCtrEnc (s : State) : Host.Outcome State Fault Refusal :=
  .next (s.runModeDraw .ctrEnc 8 (ctrEnc Config.cipher))

/-- `CTR_DEC` (rule R145). -/
def execCtrDec (s : State) : Host.Outcome State Fault Refusal :=
  .next (s.runMode .ctrDec (ctrDec Config.cipher))

end Sys2Proof.Machine
end

