-- ==== Sys2Proof/Machine/Ecb.lean ====
section
/-! DEFINITION. ECB mode (rules R120 to R125): the operations ECB_ENC and ECB_DEC. -/

namespace Sys2Proof.Machine

/-- `EcbEnc(plaintext, key)` (rule R120): pad, group, encrypt every block by itself. -/
def ecbEnc (c : Cipher) (plaintext : Bytes) (key : Key) : Result := do
  let P ← group (pad plaintext)
  return ungroup (P.map fun p => c.enc p key)

/-- `EcbDec(ciphertext, key)` (rule R122). -/
def ecbDec (c : Cipher) (ciphertext : Bytes) (key : Key) : Result :=
  if ciphertext.length = 0 ∨ ciphertext.length % 16 ≠ 0 then .error .invalidCiphertextLength
  else do
    let C ← group ciphertext
    unpad (ungroup (C.map fun y => c.dec y key))

/-- `ECB_ENC` (rule R120). -/
def execEcbEnc (s : State) : Host.Outcome State Fault Refusal :=
  .next (s.runMode .ecbEnc (ecbEnc Config.cipher))

/-- `ECB_DEC` (rule R122). -/
def execEcbDec (s : State) : Host.Outcome State Fault Refusal :=
  .next (s.runMode .ecbDec (ecbDec Config.cipher))

end Sys2Proof.Machine
end

