-- ==== Sys2Proof/Machine/Engine.lean ====
section
/-! DEFINITION. The agents' moves: the engine's one step (rule R79), a reserved command word (rules R73,
R178), and one event of the total order of host accesses, engine steps and resets (rule R63). -/

namespace Sys2Proof.Machine

/-- The command word the engine completes: `CMDLATCH` (rules R33, R67). There is no instruction
fetch. -/
def State.fetchWord (s : State) : Word := s.cmdLatch

/-- The completion of a reserved command word: error kind `IllegalOperation`; lengths, key and buffers are
not looked at (rules R73, R178). -/
def execReserved (s : State) : Host.Outcome State Fault Refusal :=
  .next (s.completeErr .illegalOperation)

/-- The engine's turn (rule R79): its completion step is enabled exactly when `BUSY = 1`; when it is not
enabled nothing changes (assumption log 4). -/
def engineTurn (s : State) : Host.Outcome State Fault Refusal :=
  if s.busy then
    match decode s.fetchWord with
    | .ok i => exec i s
    | .error _ => execReserved s
  else .next s

/-- One event of the total order (rule R63), taken in the state `s` left by the one before it. -/
def runEvent (e : Event) (s : State) : Host.Outcome State Fault Refusal :=
  match e with
  | .host a => .next (s.access a)
  | .engine => engineTurn s
  | .reset => .next s.resetEvent

/-- One step of the whole machine: the next event of the schedule happens; when none is left the engine has
its turn, so an accepted operation is completed (rule R216, weak fairness; assumption log 4). -/
def nextEvent (s : State) : Host.Outcome State Fault Refusal :=
  match s.schedule with
  | [] => engineTurn s
  | e :: rest => runEvent e { s with schedule := rest }

/-- The state in which the command word `w` has just been accepted and the engine moves next: what a `CMD`
write leaves (rule R77), whatever was in progress before. -/
def State.loadCommand (s : State) (w : Word) : State := { s.accept w with schedule := [] }

end Sys2Proof.Machine
end

