-- ==== Sys2Proof/Machine/Step.lean ====
section
/-! DEFINITION. step, and the placing of an instruction where the next step runs it. -/

namespace Sys2Proof.Machine

/-- One step of the machine (rules R15, R63): a host access, the engine's completion, or a reset. -/
def step (s : State) : Host.Outcome State Fault Refusal := nextEvent s

/-- `s` with the command word of the low `nbits` bits of `w` accepted and the engine to move next
(assumption log 6): the very next step completes exactly that command. -/
def State.withFetchWord (s : State) (nbits w : Nat) : State :=
  s.loadCommand (BitVec.ofNat 32 (tableWord nbits w))

end Sys2Proof.Machine
end

