-- ==== Sys2Proof/Safety.lean ====
section
/-! DEFINITION. What counts as a safe state and a safe run, when the engine moves next, and the spec's own
reading of one operation (rules R78, R79) in the form the statements compare the machine with. -/

namespace Sys2Proof.Machine

/-- The invariant of every reachable state: buffers in canonical form and in range (rule R50), the result
within capacity and `0x00` beyond it (rules R24, R29), `STATUS` of a legal shape (rule R27), and nothing of
a result visible while busy or after an error (rules R54, R79). -/
structure Inv (s : State) : Prop where
  keyBuf_wf : s.keyBuf.wf = true
  inBuf_wf : s.inBuf.wf = true
  outBuf_wf : s.outBuf.wf = true
  keyBuf_within : s.keyBuf.within 16 = true
  inBuf_within : s.inBuf.within Config.cap = true
  outBuf_within : s.outBuf.within s.outLen.toNat = true
  outLen_le : s.outLen.toNat ≤ Config.cap
  status_legal : statusLegal s.status = true
  busy_outLen : s.busy = true → s.outLen = 0
  error_outLen : s.error = true → s.outLen = 0

/-- With the schedule `events` the next step is the engine's, and leaves the schedule `rest`: either the engine's
turn is the next event of the total order of rule R63, or no event is left and the engine has its turn
(rule R216, assumption log 4). When `BUSY = 1` that step is the completion step of rule R79. -/
def EngineMovesNext (events rest : List Event) : Prop :=
  events = .engine :: rest ∨ (events = [] ∧ rest = [])

/-- A step is safe when it answers a next state that keeps the invariant: never a fault, never a
refusal (rule R187). -/
def SafeStep (s : State) : Prop := ∃ t, step s = .next t ∧ Inv t

/-- A run of `k` steps is safe. -/
def SafeRun (k : Nat) (s : State) : Prop :=
  ∃ t, Host.Core.run Sys2Proof.core k s = .next t ∧ Inv t

/-- `Exec(w, n, IN, klen, KEY, draw)` of rule R78, line by line, with the answers the random source would
give as two arguments. -/
def specExec (w : Word) (n : Nat) (inBuf : Memory) (klen : Word) (keyBuf : Memory)
    (draw16 : Block) (draw8 : Half) : Result :=
  let op := w.toNat % 16
  if w.toNat / 16 ≠ 0 then .error .illegalOperation
  else if op ∉ [0x2, 0x3, 0x4, 0x5, 0x8, 0x9, 0xA, 0xB, 0xC, 0xD] then .error .illegalOperation
  else
    let p := n + (16 - n % 16)
    let need := if op = 0x2 ∨ op = 0x8 then p else if op = 0xA ∨ op = 0xC then p + 16
      else if op = 0x4 then 16 else if op = 0x5 then 8 else n
    if n > Config.cap ∨ need > Config.cap then .error .capacityExceeded
    else
      let data := (List.range n).map inBuf.read
      if op = 0x2 then padOp data
      else if op = 0x3 then unpadOp data
      else if op = 0x4 then xorOp data
      else if op = 0x5 then incOp data
      else if klen.toNat ≠ 16 then .error .invalidKeyLength
      else
        let key : Key := Vector.ofFn fun j => keyBuf.read j.val
        if op = 0x8 then ecbEnc Config.cipher data key
        else if op = 0x9 then ecbDec Config.cipher data key
        else if op = 0xA then cbcEnc Config.cipher data key draw16
        else if op = 0xB then cbcDec Config.cipher data key
        else if op = 0xC then ctrEnc Config.cipher data key draw8
        else ctrDec Config.cipher data key

/-- The result rule R78 gives for the operation in progress in the state `s`. -/
def State.specResult (s : State) : Result :=
  specExec s.cmdLatch s.inLen.toNat s.inBuf s.keyLen s.keyBuf
    (Config.rand s.draws 16) (Config.rand s.draws 8)

end Sys2Proof.Machine
end

