-- ==== Sys2Proof/Certificates/Slice0/Obligations.lean ====
section
/-! DEFINITION. The statements for the provers. Each docstring names the rules it formalises. In every
statement about an operation `n` is the operand's length, the value of `IN_LEN`, and the operand is
`IN[0..n)`. A step whose schedule begins with an event is that event of the total order of rule R63; an
empty schedule gives the engine its turn (assumption log 4), and `EngineMovesNext` covers both ways in which
the next step is the engine's; a read's value is recorded in `replies` (assumption log 5). -/

open Sys2Proof Sys2Proof.Machine

/-! ### Encoding -/

/-- Section 2 of `30_encoding.md`: the encoder writes the table's word, the decoder reads it back, and a
word decodes to an operation exactly when it matches the operation's row. -/
def Obligations.DecodeInvertsEncode : Prop :=
  ∀ (w : Word) (i : Instr), i.wellFormed = true →
    decode (encode i) = .ok i ∧ encode i = matchWord i ∧
      (decode w = .ok i ↔ w &&& maskWord = matchWord i)

/-- A few words of rule R72's table, written out bit by bit, decode to their operations. -/
def Obligations.TableWordsDecode : Prop :=
  decode 0b00000000000000000000000000000010#32 = .ok .pad ∧
  decode 0b00000000000000000000000000000101#32 = .ok .inc ∧
  decode 0b00000000000000000000000000001001#32 = .ok .ecbDec ∧
  decode 0b00000000000000000000000000001010#32 = .ok .cbcEnc ∧
  decode 0b00000000000000000000000000001101#32 = .ok .ctrDec

/-- Rules R73 and R178: the reserved words are those that match no row; the decoder refuses each; one is
accepted like any other word; and its operation completes with `IllegalOperation`, whatever the lengths,
the key and the buffers hold. -/
def Obligations.ReservedWordCompletesIllegal : Prop :=
  (∀ w : Word, (∀ i, w &&& maskWord ≠ matchWord i) ↔
      (w.toNat / 16 ≠ 0 ∨ w.toNat % 16 ∈ [0x0, 0x1, 0x6, 0x7, 0xE, 0xF])) ∧
  (∀ w : Word, (∀ i, w &&& maskWord ≠ matchWord i) ↔ ∃ e, decode w = .error e) ∧
  (∀ (s : State) (w : Word) (rest : List Event), (∀ i, w &&& maskWord ≠ matchWord i) →
    s.busy = false → s.schedule = .host (.regWrite 0 w) :: rest →
      step s = .next { s with
        schedule := rest, cmdLatch := w, outBuf := [], outLen := 0, status := 0x00000001 }) ∧
  (∀ (s : State) (rest : List Event), (∀ i, s.cmdLatch &&& maskWord ≠ matchWord i) → s.busy = true →
    EngineMovesNext s.schedule rest →
      step s = .next { s with schedule := rest, outBuf := [], outLen := 0, status := 0x00000606 })

/-! ### Host accesses and the lifecycle -/

/-- Rule R52: what `RegRead` returns, and that no read, of a register or of a buffer byte, changes the
engine. The value returned is recorded as the host's latest reply (assumption log 5). -/
def Obligations.RegReadReturnsValue : Prop :=
  (∀ (s : State) (r : Nat) (rest : List Event), s.schedule = .host (.regRead r) :: rest →
    step s = .next { s with
      schedule := rest
      replies := .reg (if r = 0 then 0 else if r = 1 then s.status else if r = 2 then s.inLen
        else if r = 3 then s.outLen else if r = 4 then s.keyLen
        else if r = 5 then BitVec.ofNat 32 Config.cap else 0) :: s.replies }) ∧
  (∀ (s : State) (sp : Space) (i : Nat) (rest : List Event),
    s.schedule = .host (.bufRead sp i) :: rest →
      ∃ b, step s = .next { s with schedule := rest, replies := .byte b :: s.replies })

/-- Rule R53, with `Command(v)` of rule R77 in the place of the write of `CMD`. -/
def Obligations.RegWriteEffect : Prop :=
  ∀ (s : State) (r : Nat) (v : Word) (rest : List Event), s.schedule = .host (.regWrite r v) :: rest →
    step s = .next
      (if r = 0 then
        (if s.status.getLsbD 0 then { s with schedule := rest }
          else { s with
            schedule := rest, cmdLatch := v, outBuf := [], outLen := 0, status := 0x00000001 })
      else if s.status.getLsbD 0 then { s with schedule := rest }
      else if r = 2 then { s with schedule := rest, inLen := v }
      else if r = 4 then { s with schedule := rest, keyLen := v }
      else { s with schedule := rest })

/-- Rule R54: `BufRead` returns the byte at a valid index and `0x00` elsewhere, and `0x00` for every byte
of `OUT` at or beyond `OUT_LEN`, while an operation is in progress and after one that ended in error. The
byte returned is recorded as the host's latest reply (assumption log 5). -/
def Obligations.BufReadReturnsByte : Prop :=
  ∀ (s : State) (sp : Space) (i : Nat) (rest : List Event), Inv s →
    s.schedule = .host (.bufRead sp i) :: rest →
      ∃ b, step s = .next { s with schedule := rest, replies := .byte b :: s.replies } ∧
        (i < sp.size → b = (s.buf sp).read i) ∧
        (sp.size ≤ i → b = 0) ∧
        (sp = .out → (s.outLen.toNat ≤ i ∨ s.busy = true ∨ s.error = true) → b = 0)

/-- Rule R55: `BufWrite` stores its byte at a valid index of `KEY` or `IN` when the engine is not busy, and
does nothing else: every other byte of every buffer, and every register, is as before. -/
def Obligations.BufWriteEffect : Prop :=
  ∀ (s : State) (sp : Space) (i : Nat) (b : Byte) (rest : List Event), Inv s →
    s.schedule = .host (.bufWrite sp i b) :: rest →
      ∃ t, step s = .next t ∧
        (∀ (sp' : Space) (j : Nat), t.bufRead sp' j =
          if s.busy = false ∧ sp ≠ .out ∧ i < sp.size ∧ sp' = sp ∧ j = i then b
          else s.bufRead sp' j) ∧
        t.status = s.status ∧ t.inLen = s.inLen ∧ t.outLen = s.outLen ∧ t.keyLen = s.keyLen ∧
        t.cmdLatch = s.cmdLatch ∧ t.draws = s.draws ∧ t.replies = s.replies ∧ t.schedule = rest

/-- Rule R58: while `BUSY = 1`, any sequence of host accesses changes nothing of the engine, so the operand,
the lengths and the key stay those of the acceptance; reads are served, one reply each (assumption
log 5). -/
def Obligations.AccessesWhileBusyChangeNothing : Prop :=
  ∀ (accesses : List Access) (s : State) (rest : List Event), s.busy = true →
    s.schedule = accesses.map Event.host ++ rest →
      ∃ replies, Host.Core.run Sys2Proof.core accesses.length s =
          .next { s with schedule := rest, replies := replies ++ s.replies } ∧
        replies.length = (accesses.filter fun a => match a with
          | .regRead _ => true | .bufRead _ _ => true
          | .regWrite _ _ => false | .bufWrite _ _ _ => false).length

/-- Rule R77: a `CMD` write when `BUSY = 0` is accepted whatever the word, and discards the previous result
and status; when `BUSY = 1` it is dropped. -/
def Obligations.CommandAcceptance : Prop :=
  ∀ (s : State) (w : Word) (rest : List Event), s.schedule = .host (.regWrite 0 w) :: rest →
    (s.busy = true → step s = .next { s with schedule := rest }) ∧
    (s.busy = false → ∃ t, step s = .next t ∧
      t.cmdLatch = w ∧ t.regRead 1 = 0x00000001 ∧ t.regRead 3 = 0 ∧ (∀ i, t.bufRead .out i = 0) ∧
      t.inLen = s.inLen ∧ t.keyLen = s.keyLen ∧ t.inBuf = s.inBuf ∧ t.keyBuf = s.keyBuf ∧
      t.draws = s.draws ∧ t.replies = s.replies ∧ t.schedule = rest)

/-- Section 5 of `30_encoding.md`: when an operation is in progress and its latched word decodes to `i`, the
engine's turn is `exec i`, whether it is the schedule's next event or nothing is scheduled; and an
instruction placed by `withFetchWord` is the very next one run. -/
def Obligations.StepRunsDecodedInstruction : Prop :=
  (∀ (s : State) (i : Instr), s.busy = true → decode s.cmdLatch = .ok i →
    (s.schedule = [] → step s = exec i s) ∧
    (∀ rest, s.schedule = .engine :: rest → step s = exec i { s with schedule := rest })) ∧
  (∀ (s : State) (nbits w : Nat) (i : Instr), decodeTableWord nbits w = some i →
    step (s.withFetchWord nbits w) = exec i (s.withFetchWord nbits w))

/-- Rules R78 and R79: the engine's step commits what `Exec` of rule R78 returns, in the order of its
checks, and changes nothing else; `Exec`'s result always fits `OUT`. The request to the random source is
counted exactly when an encrypting CBC or CTR operation passes its checks. -/
def Obligations.EngineStepRefinesExec : Prop :=
  ∀ (s : State) (rest : List Event), s.busy = true → EngineMovesNext s.schedule rest →
    step s = .next (match s.specResult with
      | .ok out => { s with
          schedule := rest
          outBuf := Memory.ofBytes 0 out
          outLen := BitVec.ofNat 32 out.length
          status := 0x00000002
          draws := if s.cmdLatch = 0x0000000A ∨ s.cmdLatch = 0x0000000C then s.draws + 1 else s.draws }
      | .error K => { s with
          schedule := rest
          outBuf := []
          outLen := 0
          status := BitVec.ofNat 32 (0x00000006 + 0x100 * K.code) }) ∧
    (∀ out, s.specResult = .ok out → out.length ≤ Config.cap)

/-- Rule R79, the bytes of `OUT`: after a completion with `out` the host reads `out[j]` at index `j`, `0x00`
beyond it, and its length in `OUT_LEN`. -/
def Obligations.CompletedResultReadsBack : Prop :=
  ∀ (s : State) (out : Bytes), out.length ≤ Config.cap →
    ((s.completeOk out).regRead 3).toNat = out.length ∧
    (s.completeOk out).regRead 1 = 0x00000002 ∧
    (∀ j (h : j < out.length), (s.completeOk out).bufRead .out j = out[j]) ∧
    (∀ j, out.length ≤ j → (s.completeOk out).bufRead .out j = 0)

/-- Rule R187: in every state and for every command word the operation completes, with `Ok` or with one of
the seven error kinds; no fault, no refusal. -/
def Obligations.EveryCommandCompletes : Prop :=
  (∀ (i : Instr) (s : State), ∃ t, exec i s = .next t ∧
    (t.status = 0x00000002 ∨ ∃ K : ErrorKind, t.status = BitVec.ofNat 32 (0x00000006 + 0x100 * K.code))) ∧
  (∀ (s : State) (rest : List Event), s.busy = true → EngineMovesNext s.schedule rest →
    ∃ t, step s = .next t ∧ t.schedule = rest ∧
    (t.status = 0x00000002 ∨ ∃ K : ErrorKind, t.status = BitVec.ofNat 32 (0x00000006 + 0x100 * K.code)))

/-- Section 7 of `10_state.md` (what an operation changes): the frame of all ten operations, in every form.
`STATUS`, `OUT_LEN` and `OUT` are the destination; every byte of `KEY` and `IN`, both length registers and
the latch are unchanged; the random source is asked once by a CBC_ENC or CTR_ENC that succeeds, and by
nothing else. -/
def Obligations.ExecFrame : Prop :=
  ∀ (i : Instr) (s t : State), exec i s = .next t →
    (∀ j, t.bufRead .key j = s.bufRead .key j) ∧ (∀ j, t.bufRead .inp j = s.bufRead .inp j) ∧
    t.keyBuf = s.keyBuf ∧ t.inBuf = s.inBuf ∧
    t.inLen = s.inLen ∧ t.keyLen = s.keyLen ∧ t.cmdLatch = s.cmdLatch ∧
    t.schedule = s.schedule ∧ t.replies = s.replies ∧
    t.draws = if (i = .cbcEnc ∨ i = .ctrEnc) ∧ t.status = 0x00000002 then s.draws + 1 else s.draws

/-- Rule R175: an operation, or a reserved word, that ends in an error leaves every byte of `OUT` `0x00`,
`OUT_LEN` 0 and its code in `STATUS`; no byte computed on the way is visible. -/
def Obligations.ErrorLeavesNoResult : Prop :=
  ∀ (s t : State) (rest : List Event), s.busy = true → EngineMovesNext s.schedule rest →
    step s = .next t → t.status ≠ 0x00000002 →
    (∀ j, t.bufRead .out j = 0) ∧ t.outBuf = [] ∧ t.outLen = 0 ∧
    ∃ K : ErrorKind, t.status = BitVec.ofNat 32 (0x00000006 + 0x100 * K.code)

/-- Rule R38: the outcome is a function of the command word, `IN_LEN`, the bytes `IN[0..min(IN_LEN, CAP))`,
`KEY_LEN` and `KEY[0..16)` as they stand at acceptance, and, for CBC_ENC and CTR_ENC only, of the bytes drawn.
Two states that agree on these, and may differ in everything else, get the same status and the same result of
one command, whatever the hosts access between its acceptance and its completion, and whatever is scheduled
after it. -/
def Obligations.OutcomeDependsOnlyOnItsInputs : Prop :=
  ∀ (w : Word) (between between' : List Access) (events events' rest rest' : List Event) (s s' t t' : State),
    s.busy = false → s'.busy = false →
    s.schedule = .host (.regWrite 0 w) :: (between.map Event.host ++ events) →
    s'.schedule = .host (.regWrite 0 w) :: (between'.map Event.host ++ events') →
    EngineMovesNext events rest → EngineMovesNext events' rest' →
    s.inLen = s'.inLen →
    (∀ j, j < min s.inLen.toNat Config.cap → s.inBuf.read j = s'.inBuf.read j) →
    s.keyLen = s'.keyLen → (∀ j, j < 16 → s.keyBuf.read j = s'.keyBuf.read j) →
    (w = 0x0000000A → Config.rand s.draws 16 = Config.rand s'.draws 16) →
    (w = 0x0000000C → Config.rand s.draws 8 = Config.rand s'.draws 8) →
    Host.Core.run Sys2Proof.core (between.length + 2) s = .next t →
    Host.Core.run Sys2Proof.core (between'.length + 2) s' = .next t' →
      t.status = t'.status ∧ t.outLen = t'.outLen ∧ t.outBuf = t'.outBuf

/-- Rule R186: the full matrix of which operation can report which error; every `x` is reached from some
state, every blank from none. A reserved word reports `IllegalOperation` and nothing else. -/
def Obligations.ErrorMatrix : Prop :=
  (∀ (i : Instr) (K : ErrorKind),
    (∃ s t, exec i s = .next t ∧ t.status = BitVec.ofNat 32 (0x00000006 + 0x100 * K.code)) ↔
      K ∈ (match i with
        | .pad => [ErrorKind.capacityExceeded]
        | .unpad => [.capacityExceeded, .invalidPadding]
        | .xor => [.capacityExceeded, .invalidLength]
        | .inc => [.capacityExceeded, .invalidLength]
        | .ecbEnc => [.capacityExceeded, .invalidKeyLength]
        | .ecbDec => [.capacityExceeded, .invalidKeyLength, .invalidCiphertextLength, .invalidPadding]
        | .cbcEnc => [.capacityExceeded, .invalidKeyLength]
        | .cbcDec => [.capacityExceeded, .invalidKeyLength, .ciphertextTooShort,
            .invalidCiphertextLength, .invalidPadding]
        | .ctrEnc => [.capacityExceeded, .invalidKeyLength]
        | .ctrDec => [.capacityExceeded, .invalidKeyLength, .ciphertextTooShort,
            .invalidCiphertextLength, .invalidPadding])) ∧
  (∀ (K : ErrorKind) (e : DecodeError),
    (∃ s t rest, s.busy = true ∧ EngineMovesNext s.schedule rest ∧ decode s.cmdLatch = .error e ∧
      step s = .next t ∧ t.status = BitVec.ofNat 32 (0x00000006 + 0x100 * K.code)) ↔
    K = .illegalOperation)

/-- Rule R179: the first check that an operation meets decides the error it reports; only when none of the
checks 1 to 6 applies can it succeed or report `InvalidPadding`. -/
def Obligations.CheckPriority : Prop :=
  ∀ (s t : State) (rest : List Event), s.busy = true → EngineMovesNext s.schedule rest →
    step s = .next t →
    let n := s.inLen.toNat
    match decode s.cmdLatch with
    | .error _ => t.status = 0x00000606
    | .ok i =>
      if Config.cap < n ∨ Config.cap < needOut i n then t.status = 0x00000706
      else if (i = .xor ∧ n ≠ 32) ∨ (i = .inc ∧ n ≠ 8) then t.status = 0x00000506
      else if i ∈ [.ecbEnc, .ecbDec, .cbcEnc, .cbcDec, .ctrEnc, .ctrDec] ∧ s.keyLen.toNat ≠ 16 then
        t.status = 0x00000106
      else if (i = .cbcDec ∨ i = .ctrDec) ∧ n < 32 then t.status = 0x00000306
      else if (i = .ecbDec ∧ (n = 0 ∨ n % 16 ≠ 0)) ∨ ((i = .cbcDec ∨ i = .ctrDec) ∧ n % 16 ≠ 0) then
        t.status = 0x00000206
      else t.status = 0x00000002 ∨
        (i ∈ [.unpad, .ecbDec, .cbcDec, .ctrDec] ∧ t.status = 0x00000406)

/-- Rule R80: `p` is the least multiple of 16 strictly greater than `n`, and the capacity check passes in
exactly the listed cases. -/
def Obligations.CapacityThresholds : Prop :=
  (∀ n, paddedLen n % 16 = 0 ∧ n < paddedLen n ∧ ∀ q, q % 16 = 0 → n < q → paddedLen n ≤ q) ∧
  (∀ n, needOut .pad n = paddedLen n ∧ needOut .ecbEnc n = paddedLen n ∧
    needOut .cbcEnc n = paddedLen n + 16 ∧ needOut .ctrEnc n = paddedLen n + 16 ∧
    needOut .xor n = 16 ∧ needOut .inc n = 8 ∧ needOut .unpad n = n ∧ needOut .ecbDec n = n ∧
    needOut .cbcDec n = n ∧ needOut .ctrDec n = n) ∧
  (∀ (i : Instr) (s t : State), exec i s = .next t →
    (t.status = 0x00000706 ↔
      (if i = .pad ∨ i = .ecbEnc then Config.cap - 1 < s.inLen.toNat
        else if i = .cbcEnc ∨ i = .ctrEnc then Config.cap - 17 < s.inLen.toNat
        else Config.cap < s.inLen.toNat)))

/-- Rule R76, the column `OUT_LEN`: the length of every operation's result. -/
def Obligations.ResultLengths : Prop :=
  ∀ (i : Instr) (s t : State), exec i s = .next t → t.status = 0x00000002 →
    let n := s.inLen.toNat
    let p := n + (16 - n % 16)
    t.outLen.toNat ≤ Config.cap ∧
    match i with
    | .pad => t.outLen.toNat = p
    | .unpad => ∃ k, 1 ≤ k ∧ k ≤ 16 ∧ t.outLen.toNat + k = n
    | .xor => t.outLen.toNat = 16
    | .inc => t.outLen.toNat = 8
    | .ecbEnc => t.outLen.toNat = p
    | .ecbDec => ∃ k, 1 ≤ k ∧ k ≤ 16 ∧ t.outLen.toNat + k = n
    | .cbcEnc => t.outLen.toNat = p + 16
    | .cbcDec => ∃ k, 1 ≤ k ∧ k ≤ 16 ∧ t.outLen.toNat + 16 + k = n
    | .ctrEnc => t.outLen.toNat = p + 16
    | .ctrDec => ∃ k, 1 ≤ k ∧ k ≤ 16 ∧ t.outLen.toNat + 16 + k = n

/-! ### The whole machine -/

/-- Section 4 of `10_state.md` (the flags): `STATUS`, and with it `OUT_LEN`, `OUT` and the latch, change only
by an accepted command, by the completion of an operation in progress, or by reset. -/
def Obligations.ResultStateChangesOnlyByCommandCompletionReset : Prop :=
  ∀ s t : State, step s = .next t →
    (t.status ≠ s.status ∨ t.outLen ≠ s.outLen ∨ t.outBuf ≠ s.outBuf ∨ t.cmdLatch ≠ s.cmdLatch) →
      (∃ w rest, s.schedule = .host (.regWrite 0 w) :: rest ∧ s.busy = false) ∨
      (s.busy = true ∧ (s.schedule = [] ∨ ∃ rest, s.schedule = .engine :: rest)) ∨
      (∃ rest, s.schedule = .reset :: rest)

/-- Section 7 of `10_state.md` and section 1 of `70_reset_and_hazards.md`: the operand, the key and their
lengths change only by a host write to that very place while the engine is not busy, or by reset. -/
def Obligations.OperandStateChangesOnlyByHostOrReset : Prop :=
  ∀ s t : State, step s = .next t → (∀ rest, s.schedule ≠ .reset :: rest) →
    (t.inLen ≠ s.inLen → ∃ v rest, s.schedule = .host (.regWrite 2 v) :: rest ∧ s.busy = false) ∧
    (t.keyLen ≠ s.keyLen → ∃ v rest, s.schedule = .host (.regWrite 4 v) :: rest ∧ s.busy = false) ∧
    (t.inBuf ≠ s.inBuf → ∃ i b rest, s.schedule = .host (.bufWrite .inp i b) :: rest ∧
      s.busy = false ∧ i < Config.cap) ∧
    (t.keyBuf ≠ s.keyBuf → ∃ i b rest, s.schedule = .host (.bufWrite .key i b) :: rest ∧
      s.busy = false ∧ i < 16)

/-- The invariant `Inv` (rules R24, R27, R29, R50, R54) holds at reset. -/
def Obligations.InvHoldsAtReset : Prop := Inv State.reset

/-- Every step of the machine, from any state that meets it, keeps the invariant `Inv`: canonical buffers in
range, `OUT_LEN` within `CAP` and `OUT` zero beyond it, `STATUS` of a legal shape, no result visible while
busy or after an error. -/
def Obligations.StepKeepsInv : Prop := ∀ s t : State, Inv s → step s = .next t → Inv t

/-- Rule R187 over whole runs: from a state that meets the invariant every run of any length is safe; it
never ends in a fault or a refusal and never leaves the invariant. -/
def Obligations.EveryRunIsSafe : Prop := ∀ (k : Nat) (s : State), Inv s → SafeRun k s

/-- Section 5 of `70_reset_and_hazards.md` (liveness), as the model takes it (assumption log 4): an operation
in progress is over after at most one step more than the events scheduled. -/
def Obligations.BusyEventuallyClears : Prop :=
  ∀ s : State, s.busy = true → ∃ k, k ≤ s.schedule.length + 1 ∧
    ∃ t, Host.Core.run Sys2Proof.core k s = .next t ∧ t.busy = false

/-- Rules R200 to R202: reset, in any state, puts every piece of the architectural state at 0 and abandons a
pending operation; no draw is taken. -/
def Obligations.ResetClearsEverything : Prop :=
  ∀ (s : State) (rest : List Event), s.schedule = .reset :: rest →
    step s = .next
      { status := 0, inLen := 0, outLen := 0, keyLen := 0, keyBuf := [], inBuf := [], outBuf := [],
        cmdLatch := 0, draws := s.draws, schedule := rest, replies := s.replies }

/-- Rule R40: after reset every register reads 0 but `CAPACITY`, every byte of every buffer reads `0x00`, nothing
is pending; and a mode operation commanded before the host has loaded a key is accepted and reports
`InvalidKeyLength`: it never runs under the all-zero key. (The model's own fields stand at the values of
assumption logs 3, 4 and 5; nothing here rests on them.) -/
def Obligations.ResetLeavesZeroAndNoKey : Prop :=
  (∀ r, r ≠ 5 → State.reset.regRead r = 0) ∧ State.reset.regRead 5 = BitVec.ofNat 32 Config.cap ∧
  (∀ sp i, State.reset.bufRead sp i = 0) ∧ State.reset.cmdLatch = 0 ∧ State.reset.busy = false ∧
  ∀ i ∈ [Instr.ecbEnc, .ecbDec, .cbcEnc, .cbcDec, .ctrEnc, .ctrDec], ∀ s : State,
    s = { State.reset with draws := s.draws, schedule := s.schedule, replies := s.replies } →
    ∀ events rest, s.schedule = .host (.regWrite 0 (encode i)) :: events → EngineMovesNext events rest →
      Host.Core.run Sys2Proof.core 2 s =
        .next { s with schedule := rest, cmdLatch := encode i, status := 0x00000106 }

/-- Section 1 of `60_exceptions.md`: the `STATUS` words of the seven error kinds, in the order of their
codes. -/
def Obligations.ErrorStatusWords : Prop :=
  ∀ s : State,
    [ErrorKind.invalidKeyLength, .invalidCiphertextLength, .ciphertextTooShort, .invalidPadding,
      .invalidLength, .illegalOperation, .capacityExceeded].map (fun K => (s.completeErr K).regRead 1) =
    [0x00000106, 0x00000206, 0x00000306, 0x00000406, 0x00000506, 0x00000606, 0x00000706]

/-- Section 4 of `00_scope.md`: `CAP` is admissible, and `CAPACITY` reads it. -/
def Obligations.CapacityIsAdmissible : Prop :=
  Config.cap % 16 = 0 ∧ 1024 ≤ Config.cap ∧ Config.cap ≤ 2 ^ 31 ∧
    ∀ s : State, (s.regRead 5).toNat = Config.cap

/-- Section 4 of `00_scope.md`, derived there for a finite domain: for any primitive that meets the contract
`E(., k)` is injective and `D(., k)` is its two-sided inverse. -/
def Obligations.CipherIsBijective : Prop :=
  ∀ (c : Cipher) (k : Key), (∀ x y, c.enc x k = c.enc y k → x = y) ∧ ∀ y, c.enc (c.dec y k) k = y

/-! ### The ten operations -/

/-- Rule R101: PAD. -/
def Obligations.PadOperation : Prop :=
  encode .pad = 0x00000002 ∧ ∀ s : State,
    let n := s.inLen.toNat
    let k := 16 - n % 16
    (Config.cap - 1 < n → exec .pad s = .next { s with status := 0x00000706, outLen := 0, outBuf := [] }) ∧
    (n ≤ Config.cap - 1 → exec .pad s = .next { s with
      status := 0x00000002
      outLen := BitVec.ofNat 32 (n + k)
      outBuf := Memory.ofBytes 0 (s.operand ++ List.replicate k (BitVec.ofNat 8 k)) })

/-- Rule R103: UNPAD. -/
def Obligations.UnpadOperation : Prop :=
  encode .unpad = 0x00000003 ∧ ∀ s : State,
    let n := s.inLen.toNat
    (Config.cap < n → exec .unpad s = .next { s with status := 0x00000706, outLen := 0, outBuf := [] }) ∧
    (n ≤ Config.cap → ∀ (y : Bytes) (k : Nat), 1 ≤ k → k ≤ 16 →
      s.operand = y ++ List.replicate k (BitVec.ofNat 8 k) →
        exec .unpad s = .next { s with
          status := 0x00000002, outLen := BitVec.ofNat 32 (n - k), outBuf := Memory.ofBytes 0 y }) ∧
    (n ≤ Config.cap → (¬ ∃ (y : Bytes) (k : Nat), 1 ≤ k ∧ k ≤ 16 ∧
      s.operand = y ++ List.replicate k (BitVec.ofNat 8 k)) →
        exec .unpad s = .next { s with status := 0x00000406, outLen := 0, outBuf := [] })

/-- Rule R161: XOR. -/
def Obligations.XorOperation : Prop :=
  encode .xor = 0x00000004 ∧ ∀ s : State,
    let n := s.inLen.toNat
    (Config.cap < n → exec .xor s = .next { s with status := 0x00000706, outLen := 0, outBuf := [] }) ∧
    (n ≤ Config.cap → n ≠ 32 →
      exec .xor s = .next { s with status := 0x00000506, outLen := 0, outBuf := [] }) ∧
    (n = 32 → exec .xor s = .next { s with
      status := 0x00000002
      outLen := 16
      outBuf := Memory.ofBytes 0
        ((List.range 16).map fun j => s.inBuf.read j ^^^ s.inBuf.read (16 + j)) })

/-- Rule R163: INC, on the operand as the big-endian number `be64` of rule R14, wrapping modulo `2^64`. -/
def Obligations.IncOperation : Prop :=
  encode .inc = 0x00000005 ∧ ∀ s : State,
    let n := s.inLen.toNat
    let v := ((List.range 8).map fun j => (s.inBuf.read j).toNat * 256 ^ (7 - j)).sum
    (Config.cap < n → exec .inc s = .next { s with status := 0x00000706, outLen := 0, outBuf := [] }) ∧
    (n ≤ Config.cap → n ≠ 8 →
      exec .inc s = .next { s with status := 0x00000506, outLen := 0, outBuf := [] }) ∧
    (n = 8 → exec .inc s = .next { s with
      status := 0x00000002
      outLen := 8
      outBuf := Memory.ofBytes 0
        ((List.range 8).map fun j => BitVec.ofNat 8 ((v + 1) % 2 ^ 64 / 256 ^ (7 - j))) })

/-- Rule R120: ECB_ENC. Block `j` of the result is `E` of block `j` of the padded operand. -/
def Obligations.EcbEncOperation : Prop :=
  encode .ecbEnc = 0x00000008 ∧ ∀ s : State,
    let n := s.inLen.toNat
    (Config.cap - 1 < n →
      exec .ecbEnc s = .next { s with status := 0x00000706, outLen := 0, outBuf := [] }) ∧
    (n ≤ Config.cap - 1 → s.keyLen ≠ 16 →
      exec .ecbEnc s = .next { s with status := 0x00000106, outLen := 0, outBuf := [] }) ∧
    (n ≤ Config.cap - 1 → s.keyLen = 16 → exec .ecbEnc s = .next { s with
      status := 0x00000002
      outLen := BitVec.ofNat 32 (16 * (n / 16 + 1))
      outBuf := Memory.ofBytes 0 ((List.range (n / 16 + 1)).flatMap fun j =>
        (Config.cipher.enc (bytesAt 16 (pad s.operand) (16 * j)) s.key).toList) })

/-- Rule R122: ECB_DEC. The plaintext before unpadding is `D` of each block of the operand. -/
def Obligations.EcbDecOperation : Prop :=
  encode .ecbDec = 0x00000009 ∧ ∀ s : State,
    let n := s.inLen.toNat
    let plain := (List.range (n / 16)).flatMap fun j =>
      (Config.cipher.dec (bytesAt 16 s.operand (16 * j)) s.key).toList
    (Config.cap < n → exec .ecbDec s = .next { s with status := 0x00000706, outLen := 0, outBuf := [] }) ∧
    (n ≤ Config.cap → s.keyLen ≠ 16 →
      exec .ecbDec s = .next { s with status := 0x00000106, outLen := 0, outBuf := [] }) ∧
    (n ≤ Config.cap → s.keyLen = 16 → (n = 0 ∨ n % 16 ≠ 0) →
      exec .ecbDec s = .next { s with status := 0x00000206, outLen := 0, outBuf := [] }) ∧
    (n ≤ Config.cap → s.keyLen = 16 → n ≠ 0 → n % 16 = 0 →
      (∀ y, unpad plain = .ok y → exec .ecbDec s = .next { s with
        status := 0x00000002, outLen := BitVec.ofNat 32 y.length, outBuf := Memory.ofBytes 0 y }) ∧
      (unpad plain = .error .invalidPadding →
        exec .ecbDec s = .next { s with status := 0x00000406, outLen := 0, outBuf := [] }))

/-- Rule R131: CBC_ENC, in the closed form. The IV is the draw; `C[i] = E(xor(P[i], C[i-1]), key)`
with `C[-1] = IV`. -/
def Obligations.CbcEncOperation : Prop :=
  encode .cbcEnc = 0x0000000A ∧ ∀ s : State,
    let n := s.inLen.toNat
    let iv := Config.rand s.draws 16
    (Config.cap - 17 < n →
      exec .cbcEnc s = .next { s with status := 0x00000706, outLen := 0, outBuf := [] }) ∧
    (n ≤ Config.cap - 17 → s.keyLen ≠ 16 →
      exec .cbcEnc s = .next { s with status := 0x00000106, outLen := 0, outBuf := [] }) ∧
    (n ≤ Config.cap - 17 → s.keyLen = 16 → ∃ C : Nat → Block,
      (∀ i, i < n / 16 + 1 → C i = Config.cipher.enc
        (xorBlock (bytesAt 16 (pad s.operand) (16 * i)) (if i = 0 then iv else C (i - 1))) s.key) ∧
      exec .cbcEnc s = .next { s with
        status := 0x00000002
        outLen := BitVec.ofNat 32 (16 * (n / 16 + 2))
        outBuf := Memory.ofBytes 0
          (iv.toList ++ (List.range (n / 16 + 1)).flatMap fun i => (C i).toList)
        draws := s.draws + 1 })

/-- Rule R133: CBC_DEC, in the closed form: `P[i] = xor(D(C[i], key), C[i-1])`, where operand block
`i + 1` is `C[i]` and operand block 0 is the IV. -/
def Obligations.CbcDecOperation : Prop :=
  encode .cbcDec = 0x0000000B ∧ ∀ s : State,
    let n := s.inLen.toNat
    let plain := (List.range (n / 16 - 1)).flatMap fun i =>
      (xorBlock (Config.cipher.dec (bytesAt 16 s.operand (16 * (i + 1))) s.key)
        (bytesAt 16 s.operand (16 * i))).toList
    (Config.cap < n → exec .cbcDec s = .next { s with status := 0x00000706, outLen := 0, outBuf := [] }) ∧
    (n ≤ Config.cap → s.keyLen ≠ 16 →
      exec .cbcDec s = .next { s with status := 0x00000106, outLen := 0, outBuf := [] }) ∧
    (s.keyLen = 16 → n < 32 →
      exec .cbcDec s = .next { s with status := 0x00000306, outLen := 0, outBuf := [] }) ∧
    (n ≤ Config.cap → s.keyLen = 16 → 32 ≤ n → n % 16 ≠ 0 →
      exec .cbcDec s = .next { s with status := 0x00000206, outLen := 0, outBuf := [] }) ∧
    (n ≤ Config.cap → s.keyLen = 16 → 32 ≤ n → n % 16 = 0 →
      (∀ y, unpad plain = .ok y → exec .cbcDec s = .next { s with
        status := 0x00000002, outLen := BitVec.ofNat 32 y.length, outBuf := Memory.ofBytes 0 y }) ∧
      (unpad plain = .error .invalidPadding →
        exec .cbcDec s = .next { s with status := 0x00000406, outLen := 0, outBuf := [] }))

/-- Rule R143: CTR_ENC, in the closed form. The nonce is the draw; the result is the nonce, eight
bytes `0x00`, and `C[i] = xor(P[i], E(nonce ‖ be64inv(i), key))`. -/
def Obligations.CtrEncOperation : Prop :=
  encode .ctrEnc = 0x0000000C ∧ ∀ s : State,
    let n := s.inLen.toNat
    let nonce := Config.rand s.draws 8
    (Config.cap - 17 < n →
      exec .ctrEnc s = .next { s with status := 0x00000706, outLen := 0, outBuf := [] }) ∧
    (n ≤ Config.cap - 17 → s.keyLen ≠ 16 →
      exec .ctrEnc s = .next { s with status := 0x00000106, outLen := 0, outBuf := [] }) ∧
    (n ≤ Config.cap - 17 → s.keyLen = 16 → exec .ctrEnc s = .next { s with
      status := 0x00000002
      outLen := BitVec.ofNat 32 (16 * (n / 16 + 2))
      outBuf := Memory.ofBytes 0
        (nonce.toList ++ List.replicate 8 0 ++ (List.range (n / 16 + 1)).flatMap fun i =>
          (xorBlock (bytesAt 16 (pad s.operand) (16 * i))
            (Config.cipher.enc (nonce ++ be64inv i) s.key)).toList)
      draws := s.draws + 1 })

/-- Rule R145: CTR_DEC, in the closed form: the nonce is operand bytes 0 to 7, bytes 8 to 15 are not
looked at, and `P[i] = xor(C[i], E(nonce ‖ be64inv(i), key))`. -/
def Obligations.CtrDecOperation : Prop :=
  encode .ctrDec = 0x0000000D ∧ ∀ s : State,
    let n := s.inLen.toNat
    let plain := (List.range (n / 16 - 1)).flatMap fun i =>
      (xorBlock (bytesAt 16 s.operand (16 * (i + 1)))
        (Config.cipher.enc (bytesAt 8 s.operand 0 ++ be64inv i) s.key)).toList
    (Config.cap < n → exec .ctrDec s = .next { s with status := 0x00000706, outLen := 0, outBuf := [] }) ∧
    (n ≤ Config.cap → s.keyLen ≠ 16 →
      exec .ctrDec s = .next { s with status := 0x00000106, outLen := 0, outBuf := [] }) ∧
    (s.keyLen = 16 → n < 32 →
      exec .ctrDec s = .next { s with status := 0x00000306, outLen := 0, outBuf := [] }) ∧
    (n ≤ Config.cap → s.keyLen = 16 → 32 ≤ n → n % 16 ≠ 0 →
      exec .ctrDec s = .next { s with status := 0x00000206, outLen := 0, outBuf := [] }) ∧
    (n ≤ Config.cap → s.keyLen = 16 → 32 ≤ n → n % 16 = 0 →
      (∀ y, unpad plain = .ok y → exec .ctrDec s = .next { s with
        status := 0x00000002, outLen := BitVec.ofNat 32 y.length, outBuf := Memory.ofBytes 0 y }) ∧
      (unpad plain = .error .invalidPadding →
        exec .ctrDec s = .next { s with status := 0x00000406, outLen := 0, outBuf := [] }))

/-! ### The functions of the operations -/

/-- Rule R100: the function `pad`. -/
def Obligations.PadAppendsCount : Prop :=
  ∀ data : Bytes, ∃ k, k = 16 - data.length % 16 ∧ 1 ≤ k ∧ k ≤ 16 ∧
    pad data = data ++ List.replicate k (BitVec.ofNat 8 k) ∧
    (pad data).length = data.length + k ∧ 0 < (pad data).length ∧ (pad data).length % 16 = 0 ∧
    (∀ q, q % 16 = 0 → data.length < q → (pad data).length ≤ q) ∧
    (pad data).take data.length = data ∧
    (data = [] → pad data = List.replicate 16 0x10)

/-- Rule R102: `unpad` returns exactly the sequences that a consistent padding of 1 to 16 bytes was appended
to, and reports `InvalidPadding` in every other case. -/
def Obligations.UnpadAcceptsExactlyConsistentPadding : Prop :=
  ∀ data : Bytes,
    (∀ y, unpad data = .ok y ↔
      ∃ k, 1 ≤ k ∧ k ≤ 16 ∧ data = y ++ List.replicate k (BitVec.ofNat 8 k)) ∧
    ((∀ y k, 1 ≤ k → k ≤ 16 → data ≠ y ++ List.replicate k (BitVec.ofNat 8 k)) →
      unpad data = .error .invalidPadding)

/-- The laws (a) to (f) of rule R104; the spec marks (f) an inference of its own, "derived: from rule R100 and
rule R102". -/
def Obligations.PadUnpadLaws : Prop :=
  (∀ x : Bytes, (pad x).length % 16 = 0 ∧
    (x.length < (pad x).length ∧ (pad x).length ≤ x.length + 16) ∧
    unpad (pad x) = .ok x ∧
    (x.length = 16 → (pad x).length = 32 ∧ (pad x).drop 16 = List.replicate 16 0x10) ∧
    (pad x).length = 16 * (x.length / 16 + 1)) ∧
  (∀ d y : Bytes, unpad d = .ok y → (pad y = d ↔ d.length % 16 = 0))

/-- Rule R106, whose second half the spec marks an inference of its own, "derived: from rule R102": a padded
sequence whose last byte is replaced by a value outside `[1, 16]` is refused; by another value `v` in range,
refused unless the `v - 1` bytes before the last all equal `v`. -/
def Obligations.ForgedPaddingRefused : Prop :=
  ∀ (x : Bytes) (v : Byte),
    ((v = 0 ∨ 16 < v.toNat) → unpad ((pad x).dropLast ++ [v]) = .error .invalidPadding) ∧
    (1 ≤ v.toNat → v.toNat ≤ 16 → v.toNat ≠ 16 - x.length % 16 →
      (unpad ((pad x).dropLast ++ [v]) = .error .invalidPadding ∨
        (pad x).dropLast.drop ((pad x).length - v.toNat) = List.replicate (v.toNat - 1) v))

/-- The laws of rule R112, of which the spec marks the second an inference of its own, "derived: from rule R110
and rule R111", and the length condition of rule R110: `group` and `ungroup` are inverse on block-aligned
sequences, and `group` refuses every other length. -/
def Obligations.GroupUngroupInverse : Prop :=
  (∀ x : Bytes, x.length % 16 ≠ 0 → group x = .error .invalidLength) ∧
  (∀ x : Bytes, x.length % 16 = 0 →
    ∃ bs, group x = .ok bs ∧ ungroup bs = x ∧ bs.length = x.length / 16) ∧
  (∀ bs : List Block, group (ungroup bs) = .ok bs ∧ (ungroup bs).length = 16 * bs.length)

/-- Rule R160: `xor` byte by byte, and its five laws, which the spec marks "derived: from the bit-wise
definition". -/
def Obligations.XorLaws : Prop :=
  ∀ a b c : Block,
    (∀ j : Fin 16, (xorBlock a b)[j] = a[j] ^^^ b[j]) ∧
    xorBlock a b = xorBlock b a ∧ xorBlock (xorBlock a b) b = a ∧
    xorBlock a a = Vector.replicate 16 0 ∧ xorBlock a (Vector.replicate 16 0) = a ∧
    xorBlock (xorBlock a b) c = xorBlock a (xorBlock b c)

/-- Rule R162: `inc` is addition of 1 modulo `2^64` on the big-endian number, and is what the byte loop
computes: the last byte that is not `0xFF` is incremented, the bytes after it become `0x00`, the bytes before
it stay; when all eight are `0xFF` the result is all zero. -/
def Obligations.IncNumberAndByteForms : Prop :=
  ∀ ctr : Half,
    be64 ctr = ((List.finRange 8).map fun j => ctr[j].toNat * 256 ^ (7 - j.val)).sum ∧
    be64 (inc ctr) = (be64 ctr + 1) % 2 ^ 64 ∧
    ((∀ j : Fin 8, ctr[j] = 0xFF) → inc ctr = Vector.replicate 8 0) ∧
    (∀ j : Fin 8, ctr[j] ≠ 0xFF → (∀ m : Fin 8, j < m → ctr[m] = 0xFF) →
      (inc ctr)[j] = ctr[j] + 1 ∧ (∀ m : Fin 8, j < m → (inc ctr)[m] = 0) ∧
      ∀ m : Fin 8, m < j → (inc ctr)[m] = ctr[m])

/-- Rule R142, an inference that the spec marks as its own ("derived: from 45_xor_counter.md rule R162"): `inc`
applied `i` times to the zero counter is `be64inv(i mod 2^64)`, so the counter block of block `i` is `nonce ‖
be64inv(i mod 2^64)`. -/
def Obligations.CounterOfBlockIndex : Prop :=
  ∀ i : Nat, inc^[i] (Vector.replicate 8 0) = be64inv (i % 2 ^ 64) ∧
    be64 (inc^[i] (Vector.replicate 8 0)) = i % 2 ^ 64 ∧
    ∀ nonce : Half, (counterBlock nonce (inc^[i] counterZero)).toList =
      nonce.toList ++ (be64inv (i % 2 ^ 64)).toList

/-- Rule R123, whose "only if" half the spec marks an inference of its own: ECB_ENC takes no draw, its result
being a function of plaintext and key, and it leaks equality of blocks: two cipher blocks are equal exactly when
the padded plaintext blocks are. Last, band0's own instance: of 32 bytes `0x41` under the key of zeros, `C[0] =
C[1]` and `C[2]` differs from both. -/
def Obligations.EcbEqualBlocksLeak : Prop :=
  (∀ s t : State, exec .ecbEnc s = .next t →
    t.draws = s.draws ∧ ∀ d, exec .ecbEnc { s with draws := d } = .next { t with draws := d }) ∧
  (∀ (c : Cipher) (x : Bytes) (key : Key), ∃ out, ecbEnc c x key = .ok out ∧
    ∀ i j, i < x.length / 16 + 1 → j < x.length / 16 + 1 →
      (bytesAt 16 out (16 * i) = bytesAt 16 out (16 * j) ↔
        bytesAt 16 (pad x) (16 * i) = bytesAt 16 (pad x) (16 * j))) ∧
  (∀ c : Cipher, ∃ out, ecbEnc c (List.replicate 32 0x41) (Vector.replicate 16 0) = .ok out ∧
    out.length = 48 ∧ bytesAt 16 out 0 = bytesAt 16 out 16 ∧
    bytesAt 16 out 32 ≠ bytesAt 16 out 0 ∧ bytesAt 16 out 32 ≠ bytesAt 16 out 16)

/-- The ECB round trip, an inference that the spec marks as its own in rule R124, for every primitive that meets
the contract. -/
def Obligations.EcbRoundTrip : Prop :=
  ∀ (c : Cipher) (x : Bytes) (key : Key), ∃ y, ecbEnc c x key = .ok y ∧ ecbDec c y key = .ok x

/-- The CBC round trip, an inference that the spec marks as its own in rule R136, for every primitive and every
IV. -/
def Obligations.CbcRoundTrip : Prop :=
  ∀ (c : Cipher) (x : Bytes) (key : Key) (iv : Block),
    ∃ y, cbcEnc c x key iv = .ok y ∧ cbcDec c y key = .ok x

/-- The CTR round trip, an inference that the spec marks as its own in rule R149, for every primitive that meets
the contract and every nonce, the two directions run with two such primitives of the same `E` (whose `D` is then
the same too, `Obligations.CipherIsBijective`). -/
def Obligations.CtrRoundTrip : Prop :=
  ∀ (c c' : Cipher) (x : Bytes) (key : Key) (nonce : Half), (∀ b k, c.enc b k = c'.enc b k) →
    ∃ y, ctrEnc c x key nonce = .ok y ∧ ctrDec c' y key = .ok x

/-- The round trips on the machine, from section 1 of `40_padding.md` (rule R104 (c)) and the inferences that the
spec marks as its own in `42_ecb.md` (rule R124), `43_cbc.md` (rule R136) and section 4 of `44_ctr.md` (rule
R149): whatever an encrypting operation, or PAD, leaves in `OUT`, the host may load as the operand of the
matching inverse operation, under the same key, in any other state, and gets the original operand back. -/
def Obligations.MachineRoundTrip : Prop :=
  ∀ forward inverse : Instr,
    (forward, inverse) ∈ [(Instr.pad, Instr.unpad), (.ecbEnc, .ecbDec), (.cbcEnc, .cbcDec),
      (.ctrEnc, .ctrDec)] →
    ∀ s s' t : State, exec forward s = .next s' → s'.status = 0x00000002 →
      t.inLen = s'.outLen → (∀ j, j < s'.outLen.toNat → t.inBuf.read j = s'.outBuf.read j) →
      t.keyLen = s.keyLen → (∀ j, j < 16 → t.keyBuf.read j = s.keyBuf.read j) →
        ∃ u, exec inverse t = .next u ∧ u.status = 0x00000002 ∧ u.outLen = s.inLen ∧
          (∀ j, j < s.inLen.toNat → u.outBuf.read j = s.inBuf.read j) ∧
          ∀ j, s.inLen.toNat ≤ j → u.outBuf.read j = 0

/-- Sections of `43_cbc.md` and `44_ctr.md` on non-determinism: for one plaintext and key, two results are equal
exactly when the draws are. -/
def Obligations.ResultsDifferExactlyWhenDrawsDiffer : Prop :=
  (∀ (c : Cipher) (x : Bytes) (key : Key) (iv iv' : Block),
    cbcEnc c x key iv = cbcEnc c x key iv' ↔ iv = iv') ∧
  (∀ (c : Cipher) (x : Bytes) (key : Key) (nonce nonce' : Half),
    ctrEnc c x key nonce = ctrEnc c x key nonce' ↔ nonce = nonce')

/-- Section of `43_cbc.md` on the closed form of CBC_DEC: flipping bits of an IV byte flips exactly those bits
of the plaintext byte at the same index, when that byte is part of the message and not of its padding. -/
def Obligations.CbcIvMalleable : Prop :=
  ∀ (c : Cipher) (data x : Bytes) (key : Key) (j : Nat) (m : Byte),
    cbcDec c data key = .ok x → j < 16 → j < x.length →
      cbcDec c (data.modify j (· ^^^ m)) key = .ok (x.modify j (· ^^^ m))

/-- Section 4 of `44_ctr.md` (malleability): flipping bits of a cipher byte flips exactly those bits of the
plaintext byte at the same place, when that byte is part of the message and not of its padding; a change of
the reserved bytes 8 to 15 of the nonce block changes nothing. -/
def Obligations.CtrMalleable : Prop :=
  ∀ (c : Cipher) (data x : Bytes) (key : Key) (m : Byte), ctrDec c data key = .ok x →
    (∀ j, j < x.length →
      ctrDec c (data.modify (16 + j) (· ^^^ m)) key = .ok (x.modify j (· ^^^ m))) ∧
    (∀ j, 8 ≤ j → j < 16 → ctrDec c (data.modify j (· ^^^ m)) key = .ok x)

/-- Section 4 of `44_ctr.md` (nonce reuse): two messages encrypted under one key with one nonce: the xor of
their cipher bytes is the xor of their padded plaintext bytes, whatever `E` is. -/
def Obligations.CtrNonceReuseCancelsKeystream : Prop :=
  ∀ (c : Cipher) (x x' : Bytes) (key : Key) (nonce : Half), ∃ y y',
    ctrEnc c x key nonce = .ok y ∧ ctrEnc c x' key nonce = .ok y' ∧
    ∀ j, j < (pad x).length → j < (pad x').length →
      y.getD (16 + j) 0 ^^^ y'.getD (16 + j) 0 = (pad x).getD j 0 ^^^ (pad x').getD j 0
end

