-- ==== Sys2Proof/Laws/State.lean ====
section
/-! SUPPORT. One lemma per field per update of the state, so that no later proof unfolds a record
update. -/

namespace Sys2Proof.Machine

section accept
variable (s : State) (w : Word)
@[simp] theorem State.accept_status : (s.accept w).status = statusBusy := rfl
@[simp] theorem State.accept_inLen : (s.accept w).inLen = s.inLen := rfl
@[simp] theorem State.accept_outLen : (s.accept w).outLen = 0 := rfl
@[simp] theorem State.accept_keyLen : (s.accept w).keyLen = s.keyLen := rfl
@[simp] theorem State.accept_keyBuf : (s.accept w).keyBuf = s.keyBuf := rfl
@[simp] theorem State.accept_inBuf : (s.accept w).inBuf = s.inBuf := rfl
@[simp] theorem State.accept_outBuf : (s.accept w).outBuf = [] := rfl
@[simp] theorem State.accept_cmdLatch : (s.accept w).cmdLatch = w := rfl
@[simp] theorem State.accept_draws : (s.accept w).draws = s.draws := rfl
@[simp] theorem State.accept_schedule : (s.accept w).schedule = s.schedule := rfl
@[simp] theorem State.accept_replies : (s.accept w).replies = s.replies := rfl
end accept

section completeOk
variable (s : State) (out : Bytes)
@[simp] theorem State.completeOk_status : (s.completeOk out).status = statusDone := rfl
@[simp] theorem State.completeOk_inLen : (s.completeOk out).inLen = s.inLen := rfl
@[simp] theorem State.completeOk_outLen :
    (s.completeOk out).outLen = BitVec.ofNat 32 out.length := rfl
@[simp] theorem State.completeOk_keyLen : (s.completeOk out).keyLen = s.keyLen := rfl
@[simp] theorem State.completeOk_keyBuf : (s.completeOk out).keyBuf = s.keyBuf := rfl
@[simp] theorem State.completeOk_inBuf : (s.completeOk out).inBuf = s.inBuf := rfl
@[simp] theorem State.completeOk_outBuf : (s.completeOk out).outBuf = Memory.ofBytes 0 out := rfl
@[simp] theorem State.completeOk_cmdLatch : (s.completeOk out).cmdLatch = s.cmdLatch := rfl
@[simp] theorem State.completeOk_draws : (s.completeOk out).draws = s.draws := rfl
@[simp] theorem State.completeOk_schedule : (s.completeOk out).schedule = s.schedule := rfl
@[simp] theorem State.completeOk_replies : (s.completeOk out).replies = s.replies := rfl
end completeOk

section completeErr
variable (s : State) (K : ErrorKind)
@[simp] theorem State.completeErr_status : (s.completeErr K).status = statusError K := rfl
@[simp] theorem State.completeErr_inLen : (s.completeErr K).inLen = s.inLen := rfl
@[simp] theorem State.completeErr_outLen : (s.completeErr K).outLen = 0 := rfl
@[simp] theorem State.completeErr_keyLen : (s.completeErr K).keyLen = s.keyLen := rfl
@[simp] theorem State.completeErr_keyBuf : (s.completeErr K).keyBuf = s.keyBuf := rfl
@[simp] theorem State.completeErr_inBuf : (s.completeErr K).inBuf = s.inBuf := rfl
@[simp] theorem State.completeErr_outBuf : (s.completeErr K).outBuf = [] := rfl
@[simp] theorem State.completeErr_cmdLatch : (s.completeErr K).cmdLatch = s.cmdLatch := rfl
@[simp] theorem State.completeErr_draws : (s.completeErr K).draws = s.draws := rfl
@[simp] theorem State.completeErr_schedule : (s.completeErr K).schedule = s.schedule := rfl
@[simp] theorem State.completeErr_replies : (s.completeErr K).replies = s.replies := rfl
end completeErr

section complete
variable (s : State) (r : Result)
@[simp] theorem State.complete_ok (out : Bytes) : s.complete (.ok out) = s.completeOk out := rfl
@[simp] theorem State.complete_error (K : ErrorKind) : s.complete (.error K) = s.completeErr K := rfl
@[simp] theorem State.complete_inLen : (s.complete r).inLen = s.inLen := by cases r <;> rfl
@[simp] theorem State.complete_keyLen : (s.complete r).keyLen = s.keyLen := by cases r <;> rfl
@[simp] theorem State.complete_keyBuf : (s.complete r).keyBuf = s.keyBuf := by cases r <;> rfl
@[simp] theorem State.complete_inBuf : (s.complete r).inBuf = s.inBuf := by cases r <;> rfl
@[simp] theorem State.complete_cmdLatch : (s.complete r).cmdLatch = s.cmdLatch := by cases r <;> rfl
@[simp] theorem State.complete_draws : (s.complete r).draws = s.draws := by cases r <;> rfl
@[simp] theorem State.complete_schedule : (s.complete r).schedule = s.schedule := by cases r <;> rfl
@[simp] theorem State.complete_replies : (s.complete r).replies = s.replies := by cases r <;> rfl
end complete

section draw
variable (s : State) (n : Nat)
@[simp] theorem State.draw_bytes : (s.draw n).1 = Config.rand s.draws n := rfl
@[simp] theorem State.draw_state : (s.draw n).2 = { s with draws := s.draws + 1 } := rfl
end draw

section resetEvent
variable (s : State)
@[simp] theorem State.resetEvent_status : s.resetEvent.status = 0 := rfl
@[simp] theorem State.resetEvent_inLen : s.resetEvent.inLen = 0 := rfl
@[simp] theorem State.resetEvent_outLen : s.resetEvent.outLen = 0 := rfl
@[simp] theorem State.resetEvent_keyLen : s.resetEvent.keyLen = 0 := rfl
@[simp] theorem State.resetEvent_keyBuf : s.resetEvent.keyBuf = [] := rfl
@[simp] theorem State.resetEvent_inBuf : s.resetEvent.inBuf = [] := rfl
@[simp] theorem State.resetEvent_outBuf : s.resetEvent.outBuf = [] := rfl
@[simp] theorem State.resetEvent_cmdLatch : s.resetEvent.cmdLatch = 0 := rfl
@[simp] theorem State.resetEvent_draws : s.resetEvent.draws = s.draws := rfl
@[simp] theorem State.resetEvent_schedule : s.resetEvent.schedule = s.schedule := rfl
@[simp] theorem State.resetEvent_replies : s.resetEvent.replies = s.replies := rfl
end resetEvent

/-! The flags of the words that acceptance, completion and reset write. -/

@[simp] theorem State.accept_busy (s : State) (w : Word) : (s.accept w).busy = true := by
  simp [State.busy, statusBusy]
@[simp] theorem State.completeOk_busy (s : State) (out : Bytes) : (s.completeOk out).busy = false := by
  simp [State.busy, statusDone]
@[simp] theorem State.completeOk_error (s : State) (out : Bytes) : (s.completeOk out).error = false := by
  simp [State.error, statusDone]
@[simp] theorem State.completeErr_busy (s : State) (K : ErrorKind) : (s.completeErr K).busy = false := by
  cases K <;> simp [State.busy, statusError, ErrorKind.code]
@[simp] theorem State.completeErr_error (s : State) (K : ErrorKind) : (s.completeErr K).error = true := by
  cases K <;> simp [State.error, statusError, ErrorKind.code]
@[simp] theorem State.complete_busy (s : State) (r : Result) : (s.complete r).busy = false := by
  cases r <;> simp
@[simp] theorem State.resetEvent_busy (s : State) : s.resetEvent.busy = false := by
  simp [State.busy]

end Sys2Proof.Machine
end

