-- ==== Sys2Proof/Laws/Memory.lean ====
section
/-! SUPPORT. The byte buffers: reading after writing, and that every operation keeps the canonical
form. -/

namespace Sys2Proof.Machine

@[simp] theorem Memory.read_nil (a : Nat) : Memory.read [] a = 0 := rfl

theorem Memory.wfFrom_mono {m : Memory} {lo lo' : Nat} (h : Memory.wfFrom lo m = true) (hle : lo' ≤ lo) :
    Memory.wfFrom lo' m = true := by
  cases m with
  | nil => rfl
  | cons c m =>
    simp only [Memory.wfFrom, Bool.and_eq_true, decide_eq_true_eq] at h ⊢
    exact ⟨⟨by omega, h.1.2⟩, h.2⟩

/-- Below the lower bound of the canonical form nothing is listed. -/
theorem Memory.read_of_lt {m : Memory} {lo a : Nat} (h : Memory.wfFrom lo m = true) (ha : a < lo) :
    m.read a = 0 := by
  induction m generalizing lo with
  | nil => rfl
  | cons c m ih =>
    simp only [Memory.wfFrom, Bool.and_eq_true, decide_eq_true_eq] at h
    simp only [Memory.read]
    rw [if_neg (by omega)]
    exact ih h.2 (by omega)

theorem Memory.wfFrom_write {m : Memory} {lo a : Nat} (b : Byte) (h : Memory.wfFrom lo m = true)
    (ha : lo ≤ a) : Memory.wfFrom lo (m.write a b) = true := by
  induction m generalizing lo with
  | nil =>
    simp only [Memory.write]
    split <;> simp_all [Memory.wfFrom]
  | cons c m ih =>
    simp only [Memory.wfFrom, Bool.and_eq_true, decide_eq_true_eq] at h
    simp only [Memory.write]
    split
    · split
      · simp_all [Memory.wfFrom]
      · simp_all [Memory.wfFrom]
    · split
      · split
        · exact Memory.wfFrom_mono h.2 (by omega)
        · simp_all [Memory.wfFrom]
      · simp only [Memory.wfFrom, Bool.and_eq_true, decide_eq_true_eq]
        exact ⟨h.1, ih h.2 (by omega)⟩

/-- A write keeps the canonical form. -/
theorem Memory.wf_write {m : Memory} (a : Nat) (b : Byte) (h : m.wf = true) : (m.write a b).wf = true :=
  Memory.wfFrom_write b h (Nat.zero_le a)

theorem Memory.read_write_from {m : Memory} {lo : Nat} (a : Nat) (b : Byte) (a' : Nat)
    (h : Memory.wfFrom lo m = true) : (m.write a b).read a' = if a' = a then b else m.read a' := by
  induction m generalizing lo with
  | nil =>
    simp only [Memory.write]
    split
    · simp_all
    · simp only [Memory.read, eq_comm (a := a)]
  | cons c m ih =>
    simp only [Memory.wfFrom, Bool.and_eq_true, decide_eq_true_eq] at h
    have hz : ∀ x, x ≤ c.1 → Memory.read m x = 0 := fun x hx => Memory.read_of_lt h.2 (by omega)
    simp only [Memory.write]
    split
    · split
      · simp only [Memory.read]
        by_cases h1 : a' = a
        · rw [if_pos h1, if_neg (by omega), hz _ (by omega)]; simp_all
        · rw [if_neg h1]
      · simp only [Memory.read, eq_comm (a := a)]
    · split
      · subst a
        split
        · simp only [Memory.read]
          by_cases h1 : a' = c.1
          · rw [if_pos h1, hz _ (by omega)]; simp_all
          · rw [if_neg h1, if_neg (by omega)]
        · simp only [Memory.read]
          by_cases h1 : a' = c.1
          · simp [h1]
          · rw [if_neg (by omega), if_neg h1, if_neg (by omega)]
      · simp only [Memory.read]
        by_cases h1 : c.1 = a'
        · rw [if_pos h1, if_pos h1, if_neg (by omega)]
        · rw [if_neg h1, if_neg h1, ih h.2]

/-- Reading after a write: the byte written at its address, every other byte as before. -/
theorem Memory.read_write {m : Memory} (a : Nat) (b : Byte) (a' : Nat) (h : m.wf = true) :
    (m.write a b).read a' = if a' = a then b else m.read a' := Memory.read_write_from a b a' h

theorem Memory.wfFrom_ofBytes (base : Nat) (l : Bytes) : Memory.wfFrom base (Memory.ofBytes base l) = true := by
  induction l generalizing base with
  | nil => rfl
  | cons b l ih =>
    simp only [Memory.ofBytes]
    split
    · exact Memory.wfFrom_mono (ih (base + 1)) (by omega)
    · simp_all [Memory.wfFrom]

/-- A buffer built from bytes is in canonical form. -/
theorem Memory.wf_ofBytes (l : Bytes) : (Memory.ofBytes 0 l).wf = true := Memory.wfFrom_ofBytes 0 l

theorem Memory.read_ofBytes_from (base : Nat) (l : Bytes) (j : Nat) :
    (Memory.ofBytes base l).read (base + j) = l.getD j 0 := by
  induction l generalizing base j with
  | nil => rfl
  | cons b l ih =>
    simp only [Memory.ofBytes]
    cases j with
    | zero =>
      split
      · rw [Memory.read_of_lt (Memory.wfFrom_ofBytes (base + 1) l) (by omega)]; simp_all
      · simp [Memory.read]
    | succ j =>
      have := ih (base + 1) j
      rw [show base + (j + 1) = base + 1 + j by omega]
      split
      · simpa using this
      · simp only [Memory.read]
        rw [if_neg (by omega)]
        simpa using this

/-- A buffer built from bytes reads as those bytes and as `0x00` beyond them. -/
@[simp] theorem Memory.read_ofBytes (l : Bytes) (j : Nat) : (Memory.ofBytes 0 l).read j = l.getD j 0 := by
  simpa using Memory.read_ofBytes_from 0 l j

/-- Bytes at or beyond the size of a buffer that lists nothing there read as `0x00`. -/
theorem Memory.read_of_within {m : Memory} {size a : Nat} (h : m.within size = true) (ha : size ≤ a) :
    m.read a = 0 := by
  induction m with
  | nil => rfl
  | cons c m ih =>
    simp only [Memory.within, Bool.and_eq_true, decide_eq_true_eq] at h
    simp only [Memory.read]
    rw [if_neg (by omega)]
    exact ih h.2

theorem Memory.within_write {m : Memory} {size a : Nat} (b : Byte) (h : m.within size = true)
    (ha : a < size) : (m.write a b).within size = true := by
  induction m with
  | nil => simp only [Memory.write]; split <;> simp_all [Memory.within]
  | cons c m ih =>
    simp only [Memory.within, Bool.and_eq_true, decide_eq_true_eq] at h
    have ih' := ih h.2
    simp only [Memory.write]
    repeat' split
    all_goals simp_all [Memory.within]

theorem Memory.within_ofBytes_from (base : Nat) (l : Bytes) :
    (Memory.ofBytes base l).within (base + l.length) = true := by
  induction l generalizing base with
  | nil => rfl
  | cons b l ih =>
    have := ih (base + 1)
    rw [show base + 1 + l.length = base + (l.length + 1) by omega] at this
    simp only [Memory.ofBytes, List.length_cons]
    split
    · exact this
    · simp_all [Memory.within]

theorem Memory.within_ofBytes (l : Bytes) : (Memory.ofBytes 0 l).within l.length = true := by
  simpa using Memory.within_ofBytes_from 0 l

@[simp] theorem Memory.firstBytes_length (m : Memory) (n : Nat) : (m.firstBytes n).length = n := by
  simp [Memory.firstBytes]

theorem Memory.firstBytes_getElem (m : Memory) (n j : Nat) (h : j < (m.firstBytes n).length) :
    (m.firstBytes n)[j] = m.read j := by
  simp [Memory.firstBytes]

theorem Memory.ext_from {m m' : Memory} {lo : Nat} (h : Memory.wfFrom lo m = true)
    (h' : Memory.wfFrom lo m' = true) (heq : ∀ a, m.read a = m'.read a) : m = m' := by
  induction m generalizing m' lo with
  | nil =>
    cases m' with
    | nil => rfl
    | cons c m' =>
      have := heq c.1
      simp_all [Memory.wfFrom, Memory.read]
  | cons c m ih =>
    cases m' with
    | nil =>
      have := heq c.1
      simp_all [Memory.wfFrom, Memory.read]
    | cons c' m' =>
      simp only [Memory.wfFrom, Bool.and_eq_true, decide_eq_true_eq, bne_iff_ne, ne_eq] at h h'
      have e1 := heq c.1
      have e2 := heq c'.1
      simp only [Memory.read, if_pos] at e1 e2
      have hc : c.1 = c'.1 := by
        rcases Nat.lt_trichotomy c.1 c'.1 with hlt | he | hgt
        · rw [if_neg (by omega), Memory.read_of_lt h'.2 (by omega)] at e1
          exact absurd e1 h.1.2
        · exact he
        · rw [if_neg (by omega), Memory.read_of_lt h.2 (by omega)] at e2
          exact absurd e2.symm h'.1.2
      rw [if_pos hc.symm] at e1
      have hcc : c = c' := Prod.ext hc e1
      subst hcc
      have := ih h.2 h'.2 (fun a => by
        have e := heq a
        simp only [Memory.read] at e
        by_cases ha : c.1 = a
        · rw [Memory.read_of_lt h.2 (by omega), Memory.read_of_lt h'.2 (by omega)]
        · rwa [if_neg ha, if_neg ha] at e)
      rw [this]

/-- Two buffers in canonical form that read the same everywhere are the same data. -/
theorem Memory.ext_of_read {m m' : Memory} (h : m.wf = true) (h' : m'.wf = true)
    (heq : ∀ a, m.read a = m'.read a) : m = m' := Memory.ext_from h h' heq

end Sys2Proof.Machine
end

