-- ==== Sys2Proof/Laws/Bytes.lean ====
section
/-! SUPPORT. Byte sequences and blocks: what `bytesAt`, `ungroup` and `group` read. -/

namespace Sys2Proof.Machine

@[simp] theorem rep_length (v : Byte) (n : Nat) : (rep v n).length = n := by simp [rep]

@[simp] theorem zeros_length (n : Nat) : (zeros n).length = n := rep_length 0 n

@[simp] theorem bytesAt_getElem (n : Nat) (s : Bytes) (a j : Nat) (h : j < n) :
    (bytesAt n s a)[j] = s.getD (a + j) 0 := by simp [bytesAt]

/-- Inside the sequence, `bytesAt n s a` is the slice `s[a..a+n)`. -/
theorem bytesAt_toList {n a : Nat} {s : Bytes} (h : a + n ≤ s.length) :
    (bytesAt n s a).toList = (s.drop a).take n := by
  apply List.ext_getElem
  · simp; omega
  · intro j h1 h2
    have hj : j < n := by simpa using h1
    have h3 : a + j < s.length := by omega
    simp [h3]

@[simp] theorem ungroup_nil : ungroup [] = [] := rfl

@[simp] theorem ungroup_cons (b : Block) (bs : List Block) : ungroup (b :: bs) = b.toList ++ ungroup bs := by
  simp [ungroup]

theorem ungroup_append (bs bs' : List Block) : ungroup (bs ++ bs') = ungroup bs ++ ungroup bs' := by
  simp [ungroup]

/-- The length of an ungrouped list of blocks (rule R111). -/
@[simp] theorem ungroup_length (bs : List Block) : (ungroup bs).length = 16 * bs.length := by
  induction bs with
  | nil => rfl
  | cons b bs ih => simp [ih]; omega

/-- Byte `16 j + m` of an ungrouped list is byte `m` of its block `j` (rule R111). -/
theorem ungroup_getElem? (bs : List Block) (j m : Nat) (hm : m < 16) (hj : j < bs.length) :
    (ungroup bs)[16 * j + m]? = some (bs[j][m]) := by
  induction bs generalizing j with
  | nil => simp at hj
  | cons b bs ih =>
    cases j with
    | zero =>
      rw [ungroup_cons, List.getElem?_append_left (by simp; omega)]
      simp [hm]
    | succ j =>
      rw [ungroup_cons, List.getElem?_append_right (by simp; omega)]
      have := ih j (by simpa using hj)
      rw [show 16 * (j + 1) + m - b.toList.length = 16 * j + m by simp; omega]
      simpa using this

/-- `group` on a block-aligned sequence (rule R110). -/
theorem group_of_aligned {data : Bytes} (h : data.length % 16 = 0) :
    group data = .ok ((List.range (data.length / 16)).map fun j => bytesAt 16 data (16 * j)) := by
  simp [group, h]

theorem group_of_unaligned {data : Bytes} (h : data.length % 16 ≠ 0) :
    group data = .error .invalidLength := by
  simp [group, h]

end Sys2Proof.Machine
end

