-- ==== Sys2Proof/Laws/Operands.lean ====
section
/-! SUPPORT. The operand forms: what the common checks and the three ways of running an operation can
do. -/

namespace Sys2Proof.Machine

@[simp] theorem operand_length (s : State) : s.operand.length = s.operandLen := by
  simp [State.operand]

theorem operand_getElem (s : State) (j : Nat) (h : j < s.operand.length) :
    s.operand[j] = s.inBuf.read j := Memory.firstBytes_getElem _ _ _ _

@[simp] theorem key_getElem (s : State) (j : Nat) (h : j < 16) : s.key[j] = s.keyBuf.read j := by
  simp [State.key]

/-- Both halves of the capacity check (rule R78). -/
theorem exceedsCap_iff (cap : Nat) (i : Instr) (n : Nat) :
    exceedsCap cap i n = true ↔ cap < n ∨ cap < needOut i n := by
  simp [exceedsCap]

/-- All that the common check of a utility operation can answer. -/
theorem utilityOperand_cases (s : State) (i : Instr) :
    (exceedsCap Config.cap i s.operandLen = true ∧ s.utilityOperand i = .error .capacityExceeded) ∨
    (exceedsCap Config.cap i s.operandLen = false ∧ s.utilityOperand i = .ok s.operand) := by
  unfold State.utilityOperand
  split <;> simp_all

/-- All that the common checks of a mode operation can answer, in their order. -/
theorem modeOperand_cases (s : State) (i : Instr) :
    (exceedsCap Config.cap i s.operandLen = true ∧ s.modeOperand i = .error .capacityExceeded) ∨
    (exceedsCap Config.cap i s.operandLen = false ∧ s.keyLen ≠ 16 ∧
      s.modeOperand i = .error .invalidKeyLength) ∨
    (exceedsCap Config.cap i s.operandLen = false ∧ s.keyLen = 16 ∧
      s.modeOperand i = .ok (s.operand, s.key)) := by
  unfold State.modeOperand
  split
  · simp_all
  · split <;> simp_all

/-- All that running a utility operation can do. -/
theorem runUtility_cases (s : State) (i : Instr) (f : Bytes → Result) :
    (exceedsCap Config.cap i s.operandLen = true ∧
      s.runUtility i f = s.completeErr .capacityExceeded) ∨
    (exceedsCap Config.cap i s.operandLen = false ∧ s.runUtility i f = s.complete (f s.operand)) := by
  unfold State.runUtility
  rcases utilityOperand_cases s i with ⟨h, e⟩ | ⟨h, e⟩ <;> simp [h, e]

/-- All that running a mode operation without a draw can do. -/
theorem runMode_cases (s : State) (i : Instr) (f : Bytes → Key → Result) :
    (exceedsCap Config.cap i s.operandLen = true ∧ s.runMode i f = s.completeErr .capacityExceeded) ∨
    (exceedsCap Config.cap i s.operandLen = false ∧ s.keyLen ≠ 16 ∧
      s.runMode i f = s.completeErr .invalidKeyLength) ∨
    (exceedsCap Config.cap i s.operandLen = false ∧ s.keyLen = 16 ∧
      s.runMode i f = s.complete (f s.operand s.key)) := by
  unfold State.runMode
  rcases modeOperand_cases s i with ⟨h, e⟩ | ⟨h, k, e⟩ | ⟨h, k, e⟩
  · exact .inl ⟨h, by rw [e]⟩
  · exact .inr (.inl ⟨h, k, by rw [e]⟩)
  · exact .inr (.inr ⟨h, k, by rw [e]⟩)

/-- All that running a mode operation with a draw can do; the draw is counted only when the checks
pass. -/
theorem runModeDraw_cases (s : State) (i : Instr) (n : Nat) (f : Bytes → Key → ByteVec n → Result) :
    (exceedsCap Config.cap i s.operandLen = true ∧
      s.runModeDraw i n f = s.completeErr .capacityExceeded) ∨
    (exceedsCap Config.cap i s.operandLen = false ∧ s.keyLen ≠ 16 ∧
      s.runModeDraw i n f = s.completeErr .invalidKeyLength) ∨
    (exceedsCap Config.cap i s.operandLen = false ∧ s.keyLen = 16 ∧
      s.runModeDraw i n f = { s with draws := s.draws + 1 }.complete
        (f s.operand s.key (Config.rand s.draws n))) := by
  unfold State.runModeDraw
  rcases modeOperand_cases s i with ⟨h, e⟩ | ⟨h, k, e⟩ | ⟨h, k, e⟩
  · exact .inl ⟨h, by rw [e]⟩
  · exact .inr (.inl ⟨h, k, by rw [e]⟩)
  · exact .inr (.inr ⟨h, k, by rw [e]; rfl⟩)

end Sys2Proof.Machine
end

