-- ==== Sys2Proof/Laws/Exec.lean ====
section
/-! SUPPORT. What a meaning and a step can do, said once. -/

namespace Sys2Proof.Machine

/-! Each arm, as the shared operation it is one line over. -/

theorem exec_pad (s : State) : exec .pad s = .next (s.runUtility .pad padOp) := rfl
theorem exec_unpad (s : State) : exec .unpad s = .next (s.runUtility .unpad unpadOp) := rfl
theorem exec_xor (s : State) : exec .xor s = .next (s.runUtility .xor xorOp) := rfl
theorem exec_inc (s : State) : exec .inc s = .next (s.runUtility .inc incOp) := rfl
theorem exec_ecbEnc (s : State) : exec .ecbEnc s = .next (s.runMode .ecbEnc (ecbEnc Config.cipher)) := rfl
theorem exec_ecbDec (s : State) : exec .ecbDec s = .next (s.runMode .ecbDec (ecbDec Config.cipher)) := rfl
theorem exec_cbcEnc (s : State) : exec .cbcEnc s = .next (s.runModeDraw .cbcEnc 16 (cbcEnc Config.cipher)) := rfl
theorem exec_cbcDec (s : State) : exec .cbcDec s = .next (s.runMode .cbcDec (cbcDec Config.cipher)) := rfl
theorem exec_ctrEnc (s : State) : exec .ctrEnc s = .next (s.runModeDraw .ctrEnc 8 (ctrEnc Config.cipher)) := rfl
theorem exec_ctrDec (s : State) : exec .ctrDec s = .next (s.runMode .ctrDec (ctrDec Config.cipher)) := rfl

theorem runUtility_completes (s : State) (i : Instr) (f : Bytes → Result) :
    ∃ r, s.runUtility i f = s.complete r := by
  rcases runUtility_cases s i f with ⟨_, e⟩ | ⟨_, e⟩
  · exact ⟨.error .capacityExceeded, by rw [e, State.complete_error]⟩
  · exact ⟨_, e⟩

theorem runMode_completes (s : State) (i : Instr) (f : Bytes → Key → Result) :
    ∃ r, s.runMode i f = s.complete r := by
  rcases runMode_cases s i f with ⟨_, e⟩ | ⟨_, _, e⟩ | ⟨_, _, e⟩
  · exact ⟨.error .capacityExceeded, by rw [e, State.complete_error]⟩
  · exact ⟨.error .invalidKeyLength, by rw [e, State.complete_error]⟩
  · exact ⟨_, e⟩

theorem runModeDraw_completes (s : State) (i : Instr) (n : Nat) (f : Bytes → Key → ByteVec n → Result) :
    ∃ r d, s.runModeDraw i n f = { s with draws := d }.complete r ∧
      (d = s.draws ∨ d = s.draws + 1) := by
  rcases runModeDraw_cases s i n f with ⟨_, e⟩ | ⟨_, _, e⟩ | ⟨_, _, e⟩
  · exact ⟨.error .capacityExceeded, s.draws, by rw [e, State.complete_error], .inl rfl⟩
  · exact ⟨.error .invalidKeyLength, s.draws, by rw [e, State.complete_error], .inl rfl⟩
  · exact ⟨_, s.draws + 1, e, .inr rfl⟩

/-- Every meaning completes: it answers the completion of some result, in the state before it or in that state
with one more request to the random source counted. -/
theorem exec_completes (i : Instr) (s : State) :
    ∃ (r : Result) (d : Nat), exec i s = .next ({ s with draws := d }.complete r) ∧
      (d = s.draws ∨ ((i = .cbcEnc ∨ i = .ctrEnc) ∧ d = s.draws + 1)) := by
  cases i
  case pad =>
    obtain ⟨r, h⟩ := runUtility_completes s .pad padOp
    exact ⟨r, s.draws, by rw [exec_pad, h], .inl rfl⟩
  case unpad =>
    obtain ⟨r, h⟩ := runUtility_completes s .unpad unpadOp
    exact ⟨r, s.draws, by rw [exec_unpad, h], .inl rfl⟩
  case xor =>
    obtain ⟨r, h⟩ := runUtility_completes s .xor xorOp
    exact ⟨r, s.draws, by rw [exec_xor, h], .inl rfl⟩
  case inc =>
    obtain ⟨r, h⟩ := runUtility_completes s .inc incOp
    exact ⟨r, s.draws, by rw [exec_inc, h], .inl rfl⟩
  case ecbEnc =>
    obtain ⟨r, h⟩ := runMode_completes s .ecbEnc (ecbEnc Config.cipher)
    exact ⟨r, s.draws, by rw [exec_ecbEnc, h], .inl rfl⟩
  case ecbDec =>
    obtain ⟨r, h⟩ := runMode_completes s .ecbDec (ecbDec Config.cipher)
    exact ⟨r, s.draws, by rw [exec_ecbDec, h], .inl rfl⟩
  case cbcEnc =>
    obtain ⟨r, d, h, hd⟩ := runModeDraw_completes s .cbcEnc 16 (cbcEnc Config.cipher)
    exact ⟨r, d, by rw [exec_cbcEnc, h], hd.imp id fun hd => ⟨.inl rfl, hd⟩⟩
  case cbcDec =>
    obtain ⟨r, h⟩ := runMode_completes s .cbcDec (cbcDec Config.cipher)
    exact ⟨r, s.draws, by rw [exec_cbcDec, h], .inl rfl⟩
  case ctrEnc =>
    obtain ⟨r, d, h, hd⟩ := runModeDraw_completes s .ctrEnc 8 (ctrEnc Config.cipher)
    exact ⟨r, d, by rw [exec_ctrEnc, h], hd.imp id fun hd => ⟨.inr rfl, hd⟩⟩
  case ctrDec =>
    obtain ⟨r, h⟩ := runMode_completes s .ctrDec (ctrDec Config.cipher)
    exact ⟨r, s.draws, by rw [exec_ctrDec, h], .inl rfl⟩

/-- All that the engine's turn can do. -/
theorem engineTurn_cases (s : State) :
    (s.busy = false ∧ engineTurn s = .next s) ∨
    (s.busy = true ∧ ∃ i, decode s.cmdLatch = .ok i ∧ engineTurn s = exec i s) ∨
    (s.busy = true ∧ ∃ e, decode s.cmdLatch = .error e ∧
      engineTurn s = .next (s.completeErr .illegalOperation)) := by
  unfold engineTurn State.fetchWord
  cases hb : s.busy with
  | false => simp
  | true =>
    cases hd : decode s.cmdLatch with
    | ok i => simp
    | error e => simp [execReserved]

/-- All that a step can do: the engine's turn when nothing is scheduled, else the next event. -/
theorem step_cases (s : State) :
    (s.schedule = [] ∧ step s = engineTurn s) ∨
    (∃ a rest, s.schedule = .host a :: rest ∧ step s = .next ({ s with schedule := rest }.access a)) ∨
    (∃ rest, s.schedule = .engine :: rest ∧ step s = engineTurn { s with schedule := rest }) ∨
    (∃ rest, s.schedule = .reset :: rest ∧ step s = .next { s with schedule := rest }.resetEvent) := by
  unfold step nextEvent
  rcases s.schedule with _ | ⟨e, rest⟩
  · exact .inl ⟨rfl, rfl⟩
  · cases e
    · exact .inr (.inl ⟨_, _, rfl, rfl⟩)
    · exact .inr (.inr (.inl ⟨_, rfl, rfl⟩))
    · exact .inr (.inr (.inr ⟨_, rfl, rfl⟩))

/-- A step that is the engine's, scheduled or with nothing left in the schedule. -/
theorem step_of_engineMovesNext {s : State} {rest : List Event} (h : EngineMovesNext s.schedule rest) :
    step s = engineTurn { s with schedule := rest } := by
  rcases h with h | ⟨h, rfl⟩
  · unfold step nextEvent
    rw [h]
    rfl
  · unfold step nextEvent
    rw [h]
    exact congrArg engineTurn (by rw [← h])

/-- One step of a run. -/
theorem run_next {s t : State} (k : Nat) (h : step s = .next t) :
    Host.Core.run Sys2Proof.core (k + 1) s = Host.Core.run Sys2Proof.core k t := by
  have h' : Sys2Proof.core.step s = .next t := h
  simp [Host.Core.run, h']

end Sys2Proof.Machine
end

