-- ==== Sys2Proof/Laws/Access.lean ====
section
/-! SUPPORT. The host accesses and the reset: all that each can do, and that each keeps the buffers in
canonical form. -/

namespace Sys2Proof.Machine

/-- All that a write of `CMD` can do (rule R77). -/
theorem State.command_cases (s : State) (w : Word) :
    (s.busy = true ∧ s.command w = s) ∨ (s.busy = false ∧ s.command w = s.accept w) := by
  unfold State.command
  cases s.busy <;> simp

/-- All that a register write can do (rule R53). -/
theorem State.regWrite_cases (s : State) (r : Nat) (v : Word) :
    s.regWrite r v = s ∨
    (s.busy = false ∧ r = 0 ∧ s.regWrite r v = s.accept v) ∨
    (s.busy = false ∧ r = 2 ∧ s.regWrite r v = { s with inLen := v }) ∨
    (s.busy = false ∧ r = 4 ∧ s.regWrite r v = { s with keyLen := v }) := by
  unfold State.regWrite State.command
  split
  all_goals cases s.busy <;> simp

/-- All that a buffer write can do (rule R55). -/
theorem State.bufWrite_cases (s : State) (sp : Space) (i : Nat) (b : Byte) :
    s.bufWrite sp i b = s ∨
    (s.busy = false ∧ sp = .key ∧ i ≤ 15 ∧
      s.bufWrite sp i b = { s with keyBuf := s.keyBuf.write i b }) ∨
    (s.busy = false ∧ sp = .inp ∧ i ≤ Config.cap - 1 ∧
      s.bufWrite sp i b = { s with inBuf := s.inBuf.write i b }) := by
  unfold State.bufWrite
  cases s.busy
  · cases sp
    · by_cases h : i ≤ 15 <;> simp [h]
    · by_cases h : i ≤ Config.cap - 1 <;> simp [h]
    · simp
  · simp

/-- While busy no write of the host has an effect (rule R58). -/
theorem State.regWrite_of_busy {s : State} (h : s.busy = true) (r : Nat) (v : Word) :
    s.regWrite r v = s := by
  rcases s.regWrite_cases r v with e | ⟨h', _⟩ | ⟨h', _⟩ | ⟨h', _⟩
  · exact e
  all_goals simp [h] at h'

theorem State.bufWrite_of_busy {s : State} (h : s.busy = true) (sp : Space) (i : Nat) (b : Byte) :
    s.bufWrite sp i b = s := by
  rcases s.bufWrite_cases sp i b with e | ⟨h', _⟩ | ⟨h', _⟩
  · exact e
  all_goals simp [h] at h'

/-- Each of the three buffers is in canonical form. -/
def State.buffersWf (s : State) : Bool := s.keyBuf.wf && s.inBuf.wf && s.outBuf.wf

theorem State.buffersWf_reset : State.reset.buffersWf = true := rfl

theorem State.buffersWf_complete {s : State} (r : Result) (h : s.buffersWf = true) :
    (s.complete r).buffersWf = true := by
  simp only [State.buffersWf, Bool.and_eq_true] at h ⊢
  refine ⟨⟨by simpa using h.1.1, by simpa using h.1.2⟩, ?_⟩
  cases r with
  | ok out => exact Memory.wf_ofBytes out
  | error K => rfl

/-- Every host access keeps the buffers in canonical form. -/
theorem State.buffersWf_access {s : State} (a : Access) (h : s.buffersWf = true) :
    (s.access a).buffersWf = true := by
  cases a with
  | regRead r => exact h
  | bufRead sp i => exact h
  | regWrite r v =>
    show (s.regWrite r v).buffersWf = true
    rcases s.regWrite_cases r v with e | ⟨_, _, e⟩ | ⟨_, _, e⟩ | ⟨_, _, e⟩ <;> rw [e]
    · exact h
    · simp only [State.buffersWf, Bool.and_eq_true] at h ⊢
      exact ⟨h.1, rfl⟩
    · exact h
    · exact h
  | bufWrite sp i b =>
    show (s.bufWrite sp i b).buffersWf = true
    rcases s.bufWrite_cases sp i b with e | ⟨_, _, _, e⟩ | ⟨_, _, _, e⟩ <;> rw [e]
    · exact h
    · simp only [State.buffersWf, Bool.and_eq_true] at h ⊢
      exact ⟨⟨Memory.wf_write i b h.1.1, h.1.2⟩, h.2⟩
    · simp only [State.buffersWf, Bool.and_eq_true] at h ⊢
      exact ⟨⟨h.1.1, Memory.wf_write i b h.1.2⟩, h.2⟩

end Sys2Proof.Machine
end

