-- ==== Sys2Proof/Laws/Modes.lean ====
section
/-! SUPPORT. The functions of the operations: lengths, what each can answer, and block `i` of each loop. -/

namespace Sys2Proof.Machine

theorem pad_length (x : Bytes) : (pad x).length = x.length + (16 - x.length % 16) := by
  simp [pad, padCount]

/-- All that `unpad` can answer. -/
theorem unpad_answers (d : Bytes) : (∃ y, unpad d = .ok y) ∨ unpad d = .error .invalidPadding := by
  unfold unpad
  split
  · exact .inr rfl
  · repeat' split
    all_goals simp

/-- The blocks of the padded plaintext, `P` of rules R120, R131 and R143. -/
theorem group_pad (x : Bytes) :
    group (pad x) = .ok ((List.range (x.length / 16 + 1)).map fun j => bytesAt 16 (pad x) (16 * j)) := by
  have h := pad_length x
  rw [group_of_aligned (by omega), show (pad x).length / 16 = x.length / 16 + 1 by omega]

@[simp] theorem cbcEncLoop_length (c : Cipher) (key : Key) (previous : Block) (ps : List Block) :
    (cbcEncLoop c key previous ps).length = ps.length := by
  induction ps generalizing previous with
  | nil => rfl
  | cons p ps ih => simp [cbcEncLoop, ih]

@[simp] theorem cbcDecLoop_length (c : Cipher) (key : Key) (previous : Block) (ys : List Block) :
    (cbcDecLoop c key previous ys).length = ys.length := by
  induction ys generalizing previous with
  | nil => rfl
  | cons y ys ih => simp [cbcDecLoop, ih]

@[simp] theorem ctrLoop_length (c : Cipher) (key : Key) (nonce counter : Half) (xs : List Block) :
    (ctrLoop c key nonce counter xs).length = xs.length := by
  induction xs generalizing counter with
  | nil => rfl
  | cons x xs ih => simp [ctrLoop, ih]

/-- Block `i` of the CBC encryption loop: `E` of plaintext block `i` xored with the block before it. -/
theorem cbcEncLoop_getElem (c : Cipher) (key : Key) (previous : Block) (ps : List Block) (i : Nat)
    (h : i < ps.length) :
    (cbcEncLoop c key previous ps)[i]'(by simpa) =
      c.enc (xorBlock ps[i] ((previous :: cbcEncLoop c key previous ps)[i]'(by simp; omega))) key := by
  induction ps generalizing previous i with
  | nil => simp at h
  | cons p ps ih =>
    cases i with
    | zero => rfl
    | succ i => simp only [cbcEncLoop, List.getElem_cons_succ]; exact ih _ _ (by simpa using h)

/-- Block `i` of the CBC decryption loop. -/
theorem cbcDecLoop_getElem (c : Cipher) (key : Key) (previous : Block) (ys : List Block) (i : Nat)
    (h : i < ys.length) :
    (cbcDecLoop c key previous ys)[i]'(by simpa) =
      xorBlock (c.dec ys[i] key) ((previous :: ys)[i]'(by simp; omega)) := by
  induction ys generalizing previous i with
  | nil => simp at h
  | cons y ys ih =>
    cases i with
    | zero => rfl
    | succ i => simp only [cbcDecLoop, List.getElem_cons_succ]; exact ih _ _ (by simpa using h)

/-- Block `i` of the CTR loop: its counter is the start value incremented `i` times. -/
theorem ctrLoop_getElem (c : Cipher) (key : Key) (nonce counter : Half) (xs : List Block) (i : Nat)
    (h : i < xs.length) :
    (ctrLoop c key nonce counter xs)[i]'(by simpa) =
      xorBlock xs[i] (c.enc (counterBlock nonce (inc^[i] counter)) key) := by
  induction xs generalizing counter i with
  | nil => simp at h
  | cons x xs ih =>
    cases i with
    | zero => rfl
    | succ i =>
      have h' : i < xs.length := by simpa using h
      simp only [ctrLoop, List.getElem_cons_succ]
      rw [ih (inc counter) i h', Function.iterate_succ_apply]

/-- An encrypting function never answers an error. -/
theorem ecbEnc_ok (c : Cipher) (x : Bytes) (key : Key) : ∃ P, group (pad x) = .ok P ∧
    ecbEnc c x key = .ok (ungroup (P.map fun p => c.enc p key)) :=
  ⟨_, group_pad x, by simp only [ecbEnc, group_pad]; rfl⟩

theorem cbcEnc_ok (c : Cipher) (x : Bytes) (key : Key) (iv : Block) : ∃ P, group (pad x) = .ok P ∧
    cbcEnc c x key iv = .ok (iv.toList ++ ungroup (cbcEncLoop c key iv P)) :=
  ⟨_, group_pad x, by simp only [cbcEnc, group_pad]; rfl⟩

theorem ctrEnc_ok (c : Cipher) (x : Bytes) (key : Key) (nonce : Half) : ∃ P, group (pad x) = .ok P ∧
    ctrEnc c x key nonce = .ok (nonce.toList ++ zeros 8 ++ ungroup (ctrLoop c key nonce counterZero P)) :=
  ⟨_, group_pad x, by simp only [ctrEnc, group_pad]; rfl⟩

/-- A decrypting function on an operand that passes its length checks answers what `unpad` does. -/
theorem ecbDec_of_aligned (c : Cipher) (d : Bytes) (key : Key) (h0 : d.length ≠ 0)
    (h : d.length % 16 = 0) : ∃ C, group d = .ok C ∧
    ecbDec c d key = unpad (ungroup (C.map fun y => c.dec y key)) :=
  ⟨_, group_of_aligned h, by rw [ecbDec, if_neg (by omega), group_of_aligned h]; rfl⟩

theorem cbcDec_of_aligned (c : Cipher) (d : Bytes) (key : Key) (h0 : 32 ≤ d.length)
    (h : d.length % 16 = 0) : ∃ blocks, group d = .ok blocks ∧
    cbcDec c d key = unpad (ungroup (cbcDecLoop c key (bytesAt 16 d 0) (blocks.drop 1))) :=
  ⟨_, group_of_aligned h, by
    rw [cbcDec, if_neg (by omega), if_neg (by omega), group_of_aligned h]; rfl⟩

theorem ctrDec_of_aligned (c : Cipher) (d : Bytes) (key : Key) (h0 : 32 ≤ d.length)
    (h : d.length % 16 = 0) : ∃ blocks, group d = .ok blocks ∧
    ctrDec c d key = unpad (ungroup (ctrLoop c key (bytesAt 8 d 0) counterZero (blocks.drop 1))) :=
  ⟨_, group_of_aligned h, by
    rw [ctrDec, if_neg (by omega), if_neg (by omega), group_of_aligned h]; rfl⟩

end Sys2Proof.Machine
end

