-- ==== Sys2Proof/Laws/PerInstr.lean ====
section
/-! SUPPORT. Statements about every operation as syntax, one lemma for each constructor. -/

namespace Sys2Proof.Laws

/-- The encoder writes the table's word (rule R72) and the decoder reads it back. -/
def EncodedWord.Statement (i : Instr) : Prop :=
  encode i = matchWord i ∧ decode (matchWord i) = .ok i ∧ wellFormedWord (matchWord i) = true

theorem EncodedWord.pad : EncodedWord.Statement .pad := by
  unfold EncodedWord.Statement; decide
theorem EncodedWord.unpad : EncodedWord.Statement .unpad := by
  unfold EncodedWord.Statement; decide
theorem EncodedWord.xor : EncodedWord.Statement .xor := by
  unfold EncodedWord.Statement; decide
theorem EncodedWord.inc : EncodedWord.Statement .inc := by
  unfold EncodedWord.Statement; decide
theorem EncodedWord.ecbEnc : EncodedWord.Statement .ecbEnc := by
  unfold EncodedWord.Statement; decide
theorem EncodedWord.ecbDec : EncodedWord.Statement .ecbDec := by
  unfold EncodedWord.Statement; decide
theorem EncodedWord.cbcEnc : EncodedWord.Statement .cbcEnc := by
  unfold EncodedWord.Statement; decide
theorem EncodedWord.cbcDec : EncodedWord.Statement .cbcDec := by
  unfold EncodedWord.Statement; decide
theorem EncodedWord.ctrEnc : EncodedWord.Statement .ctrEnc := by
  unfold EncodedWord.Statement; decide
theorem EncodedWord.ctrDec : EncodedWord.Statement .ctrDec := by
  unfold EncodedWord.Statement; decide

end Sys2Proof.Laws
end

