-- ==== Sys2Proof/Tests/Slice0.lean ====
section
/-! SUPPORT. The model's own tests: every operation's word, the checks of WellFormed, one or two results of
each operation taken from the spec, and for every statement with hypotheses a state that meets them. -/

namespace Sys2Proof.Tests

open Sys2Proof Sys2Proof.Machine

/-! ### Decoding: the words of rule R72, `ZERO` (28 bits) above `OP` (4 bits), written out bit by bit -/

theorem test_decode_pad : decode 0b00000000000000000000000000000010#32 = .ok .pad := by decide
theorem test_decode_unpad : decode 0b00000000000000000000000000000011#32 = .ok .unpad := by decide
theorem test_decode_xor : decode 0b00000000000000000000000000000100#32 = .ok .xor := by decide
theorem test_decode_inc : decode 0b00000000000000000000000000000101#32 = .ok .inc := by decide
theorem test_decode_ecbEnc : decode 0b00000000000000000000000000001000#32 = .ok .ecbEnc := by decide
theorem test_decode_ecbDec : decode 0b00000000000000000000000000001001#32 = .ok .ecbDec := by decide
theorem test_decode_cbcEnc : decode 0b00000000000000000000000000001010#32 = .ok .cbcEnc := by decide
theorem test_decode_cbcDec : decode 0b00000000000000000000000000001011#32 = .ok .cbcDec := by decide
theorem test_decode_ctrEnc : decode 0b00000000000000000000000000001100#32 = .ok .ctrEnc := by decide
theorem test_decode_ctrDec : decode 0b00000000000000000000000000001101#32 = .ok .ctrDec := by decide

/-- Rule R73: the six reserved `OP` values. -/
theorem test_decode_reserved_op : [0x0#32, 0x1#32, 0x6#32, 0x7#32, 0xE#32, 0xF#32].map decode =
    List.replicate 6 (.error .reservedOp) := by decide

/-- Rules R73 and R179: a word with `ZERO` not 0 is reserved whatever its `OP`, at either end of the
field. -/
theorem test_decode_zero_field :
    [0x0000001B#32, 0x80000002#32, 0x00000010#32, 0xFFFFFFFF#32].map decode =
      List.replicate 4 (.error .zeroFieldNotZero) := by decide

theorem test_decodeTableWord : decodeTableWord 32 0x8 = some .ecbEnc ∧
    decodeTableWord 32 0x18 = none ∧ decodeTableWord 40 (2 ^ 32 + 0x8) = none := by decide

/-! ### WellFormed: each check refuses an ill-formed term -/

theorem test_wellFormed_zeroField : zeroFieldOk 0x00000012 = false := by decide
theorem test_wellFormed_opField : [0x0#32, 0x1#32, 0x6#32, 0x7#32, 0xE#32, 0xF#32].map opFieldOk =
    List.replicate 6 false := by decide
theorem test_wellFormedWord : wellFormedWord 0x0000001B = false ∧ wellFormedWord 0x00000006 = false ∧
    wellFormedWord 0x0000000D = true := by decide
theorem test_admissibleCap : admissibleCap 1000 = false ∧ admissibleCap 1025 = false ∧
    admissibleCap (2 ^ 31 + 16) = false ∧ admissibleCap 4096 = true := by decide
theorem test_wellFormed_instr : ∀ i ∈ Instr.all, i.wellFormed = true := by decide

/-! ### Small states -/

/-- Reset, and then the operand `data` with `IN_LEN = n` and `KEY_LEN = k`. -/
def loaded (n : Nat) (data : Bytes) (k : Word := 0) : State :=
  { State.reset with inLen := BitVec.ofNat 32 n, keyLen := k, inBuf := Memory.ofBytes 0 data }

/-- A state with the command word `w` accepted and the engine to move next. -/
def busyWith (w : Word) (s : State) : State := s.loadCommand w

/-- What the host finds after a step: `STATUS`, `OUT_LEN` and the first `n` bytes of `OUT`. -/
def found (n : Nat) : Host.Outcome State Fault Refusal → Option (Word × Word × Bytes)
  | .next t => some (t.status, t.outLen, t.outBuf.firstBytes n)
  | .fault _ => none
  | .refused _ => none

/-! ### Results of the spec (`95_test_vectors.md`; the row is named) -/

/-- P5: an exact multiple of 16 gets a whole block of padding. -/
theorem test_pad_full_block : found 33 (step (busyWith 0x2 (loaded 16
      [0x30, 0x31, 0x32, 0x33, 0x34, 0x35, 0x36, 0x37, 0x38, 0x39, 0x3A, 0x3B, 0x3C, 0x3D, 0x3E, 0x3F]))) =
    some (0x00000002, 32,
      [0x30, 0x31, 0x32, 0x33, 0x34, 0x35, 0x36, 0x37, 0x38, 0x39, 0x3A, 0x3B, 0x3C, 0x3D, 0x3E, 0x3F] ++
        List.replicate 16 0x10 ++ [0]) := by decide +kernel

/-- P1: the empty operand. -/
theorem test_pad_empty : found 16 (step (busyWith 0x2 (loaded 0 []))) =
    some (0x00000002, 16, List.replicate 16 0x10) := by decide +kernel

/-- U20: exactly `k` bytes are removed. -/
theorem test_unpad_exact_count : found 16 (step (busyWith 0x3 (loaded 16 (List.replicate 16 0x0F)))) =
    some (0x00000002, 1, 0x0F :: List.replicate 15 0) := by decide +kernel

/-- U17: the thirteenth byte from the end is not 13. -/
theorem test_unpad_inconsistent : found 16 (step (busyWith 0x3 (loaded 16
      ([0x0D, 0x0D, 0x0D, 0x41] ++ List.replicate 12 0x0D)))) =
    some (0x00000406, 0, List.replicate 16 0) := by decide +kernel

/-- X2: the operand is `a` and then `b`. -/
theorem test_xor : found 16 (step (busyWith 0x4 (loaded 32
      [0x01, 0x23, 0x45, 0x67, 0x89, 0xAB, 0xCD, 0xEF, 0xFE, 0xDC, 0xBA, 0x98, 0x76, 0x54, 0x32, 0x10,
        0x0F, 0x0F, 0x0F, 0x0F, 0x0F, 0x0F, 0x0F, 0x0F, 0xF0, 0xF0, 0xF0, 0xF0, 0xF0, 0xF0, 0xF0, 0xF0]))) =
    some (0x00000002, 16,
      [0x0E, 0x2C, 0x4A, 0x68, 0x86, 0xA4, 0xC2, 0xE0, 0x0E, 0x2C, 0x4A, 0x68, 0x86, 0xA4, 0xC2, 0xE0]) := by
  decide +kernel

/-- X6: 31 bytes are no operand of XOR. -/
theorem test_xor_length : found 16 (step (busyWith 0x4 (loaded 31 []))) =
    some (0x00000506, 0, List.replicate 16 0) := by decide +kernel

/-- I4: the carry runs toward byte 0. -/
theorem test_inc_carry : found 9 (step (busyWith 0x5 (loaded 8 [0, 0, 0, 0, 0xFF, 0xFF, 0xFF, 0xFF]))) =
    some (0x00000002, 8, [0, 0, 0, 1, 0, 0, 0, 0, 0]) := by decide +kernel

/-- I9: the wrap is a success. -/
theorem test_inc_wrap : found 8 (step (busyWith 0x5 (loaded 8 (List.replicate 8 0xFF)))) =
    some (0x00000002, 8, List.replicate 8 0) := by decide +kernel

/-- The instance ROTADD of `95_test_vectors.md` section 2. -/
def rotAdd : Cipher where
  enc x k := Vector.ofFn fun j => x[(j.val + 1) % 16]'(Nat.mod_lt _ (by decide)) + k[j]
  dec y k := Vector.ofFn fun i => y[(i.val + 15) % 16]'(Nat.mod_lt _ (by decide)) -
    k[(i.val + 15) % 16]'(Nat.mod_lt _ (by decide))
  dec_enc := by
    intro x k
    apply Vector.ext
    intro i hi
    have h : (i + 15 + 1) % 16 = i := by omega
    simp [h]

/-- The key K0. -/
def keyK0 : Key := Vector.ofFn fun j => BitVec.ofNat 8 j.val

/-- `n` bytes counting up from `b`. -/
def up (b : Byte) (n : Nat) : Bytes := (List.range n).map fun j => b + BitVec.ofNat 8 j

/-- E2r. -/
theorem test_ecbEnc : (ecbEnc rotAdd [0x41, 0x42, 0x43] keyK0).toOption =
    some ([0x42, 0x44] ++ up 0x0F 13 ++ [0x50]) := by decide +kernel

/-- E11r: `D` and not `E` decrypts. -/
theorem test_ecbDec : (ecbDec rotAdd (up 0x00 16 ++ up 0x0F 15 ++ [0x0F]) keyK0).toOption =
    some (List.replicate 17 0x00) := by decide +kernel

/-- B3r: the ciphertext, not the plaintext, chains forward. -/
theorem test_cbcEnc : (cbcEnc rotAdd (up 0x30 16) keyK0 (Vector.ofFn fun j => BitVec.ofNat 8 (0xA0 + j.val))).toOption =
    some (up 0xA0 16 ++ up 0x90 16 ++ [0x81, 0x83, 0x85, 0x87, 0x89, 0x8B, 0x8D, 0x8F, 0x91, 0x93, 0x95, 0x97,
      0x99, 0x9B, 0x9D, 0x8F]) := by decide +kernel

/-- B9r: the IV is the first block of the operand. -/
theorem test_cbcDec : (cbcDec rotAdd (up 0xA0 16 ++ up 0x90 16 ++ [0x81, 0x83, 0x85, 0x87, 0x89, 0x8B, 0x8D,
      0x8F, 0x91, 0x93, 0x95, 0x97, 0x99, 0x9B, 0x9D, 0x8F]) keyK0).toOption =
    some (up 0x30 16) := by decide +kernel

/-- T3r: the second block has counter 1, in the last byte of the counter block. -/
theorem test_ctrEnc : (ctrEnc rotAdd (up 0x30 16) keyK0 (Vector.ofFn fun j => BitVec.ofNat 8 (0xC0 + j.val))).toOption =
    some (up 0xC0 8 ++ List.replicate 8 0x00 ++ [0xF1, 0xF2, 0xF7, 0xF4, 0xFD, 0xFE, 0xFB] ++
      List.replicate 8 0x30 ++ [0xF0, 0xD1, 0xD3, 0xD5, 0xD7, 0xD9, 0xDB, 0xDD] ++ up 0x17 7 ++
      [0x1F, 0xDF]) := by decide +kernel

/-- T8r with the reserved bytes 8 to 15 set (rule R146): `E` decrypts and those bytes are ignored. -/
theorem test_ctrDec : (ctrDec rotAdd (up 0xC0 8 ++ List.replicate 8 0xEE ++ [0x80, 0x81, 0x86, 0xCA, 0xC4, 0xC6,
      0xC0, 0x0A, 0x05, 0x04, 0x07, 0x06, 0x01, 0x00, 0x03, 0xC2]) keyK0).toOption =
    some [0x41, 0x42, 0x43] := by decide +kernel

/-- Rule R179's example: 17 bytes are too short before they are no multiple of 16. -/
theorem test_cbcDec_too_short : found 0 (step (busyWith 0xB (loaded 17 [] 16))) =
    some (0x00000306, 0, []) := by decide +kernel

/-- Rule R179's example: with no key that is what is reported, whatever the length. -/
theorem test_ctrDec_key_first : found 0 (step (busyWith 0xD (loaded 5 [] 0))) =
    some (0x00000106, 0, []) := by decide +kernel

/-- Rule R178: a reserved word. -/
theorem test_reserved_word : found 1 (step (busyWith 0x0000001B (loaded 17 [] 16))) =
    some (0x00000606, 0, [0]) := by decide +kernel

/-! ### Facts about the small states -/

/-- `s` with the events `es` to come. -/
def sched (es : List Event) (s : State) : State := { s with schedule := es }

theorem cap_bounds : 1024 ≤ Config.cap ∧ Config.cap ≤ 2 ^ 31 := by unfold Config.cap; omega

theorem loaded_len {n : Nat} (data : Bytes) (k : Word) (h : n < 2 ^ 32) :
    (loaded n data k).inLen.toNat = n := by simp [loaded]; omega

theorem loaded_operand {data : Bytes} (k : Word) (h : data.length < 2 ^ 32) :
    (loaded data.length data k).operand = data := by
  apply List.ext_getElem
  · simp [State.operandLen, loaded_len data k h]
  · intro j h1 h2
    rw [operand_getElem]
    simp [loaded, h2]

theorem bytesAt_first {n : Nat} (v : ByteVec n) (rest : Bytes) : bytesAt n (v.toList ++ rest) 0 = v := by
  apply Vector.ext
  intro j hj
  simp [List.getD, List.getElem?_append, hj]

theorem bytesAt_second (v w : Block) : bytesAt 16 (v.toList ++ w.toList) 16 = w := by
  apply Vector.ext
  intro j hj
  simp [List.getD, List.getElem?_append, hj]

/-- A state with a command accepted meets the hypotheses of a statement about the engine's step, with the
engine's turn scheduled before other events and with nothing scheduled. -/
theorem busyWith_ready (w : Word) (s : State) (events rest : List Event) (h : EngineMovesNext events rest) :
    (sched events (busyWith w s)).busy = true ∧
      EngineMovesNext (sched events (busyWith w s)).schedule rest ∧
      ∃ t, step (sched events (busyWith w s)) = .next t := by
  have hb : (sched events (busyWith w s)).busy = true := State.accept_busy s w
  have hs : EngineMovesNext (sched events (busyWith w s)).schedule rest := h
  refine ⟨hb, hs, ?_⟩
  rw [step_of_engineMovesNext hs]
  rcases engineTurn_cases { sched events (busyWith w s) with schedule := rest } with
    ⟨_, e⟩ | ⟨_, i, _, e⟩ | ⟨_, _, _, e⟩
  · exact ⟨_, e⟩
  · obtain ⟨r, d, e', _⟩ := exec_completes i { sched events (busyWith w s) with schedule := rest }
    exact ⟨_, e.trans e'⟩
  · exact ⟨_, e⟩

/-- Both ways in which the engine moves next. -/
theorem engineMovesNext_both :
    EngineMovesNext [] [] ∧ EngineMovesNext [.engine, .host (.regRead 1)] [.host (.regRead 1)] :=
  ⟨.inr ⟨rfl, rfl⟩, .inl rfl⟩

theorem inv_sched (es : List Event) : Inv (sched es State.reset) := by
  constructor <;> first | rfl | exact Nat.zero_le _ | intro; rfl

theorem inv_sched_busy (w : Word) (es : List Event) : Inv (sched es (busyWith w State.reset)) := by
  constructor <;> first | rfl | exact Nat.zero_le _ | intro; rfl

theorem inv_sched_error (es : List Event) : Inv (sched es (State.reset.completeErr .invalidPadding)) := by
  constructor <;> first | rfl | exact Nat.zero_le _ | intro; rfl

/-- A Block whose padding unpads to the empty message, and one that no padding is. -/
def padBlock : Block := Vector.replicate 16 0x10
def zeroBlock : Block := Vector.replicate 16 0

theorem unpad_padBlock : unpad padBlock.toList = .ok [] := by decide +kernel
theorem unpad_zeroBlock : unpad zeroBlock.toList = .error .invalidPadding := by decide +kernel

/-- The key of a state whose `KEY` is as after reset. -/
def keyZ : Key := State.reset.key

/-- An operand of ECB_DEC whose one block decrypts to `b`. -/
def ecbState (b : Block) : State := loaded 16 (Config.cipher.enc b keyZ).toList 16

/-- An operand of CBC_DEC, IV zero, whose one block decrypts to `b`. -/
def cbcState (b : Block) : State :=
  loaded 32 (zeroBlock.toList ++ (Config.cipher.enc b keyZ).toList) 16

/-- An operand of CTR_DEC, nonce zero, whose one block decrypts to `b`. -/
def ctrState (b : Block) : State :=
  loaded 32 (zeroBlock.toList ++ (xorBlock b (Config.cipher.enc zeroBlock keyZ)).toList) 16

theorem xorBlock_zero (b : Block) : xorBlock b zeroBlock = b := by
  apply Vector.ext; intro j hj; simp [xorBlock, zeroBlock]

theorem xorBlock_cancel (a b : Block) : xorBlock (xorBlock a b) b = a := by
  apply Vector.ext; intro j hj; simp [xorBlock]

theorem ecbState_operand (b : Block) : (ecbState b).operand = (Config.cipher.enc b keyZ).toList := by
  have h := loaded_operand (data := (Config.cipher.enc b keyZ).toList) 16 (by simp)
  rwa [Vector.length_toList] at h

theorem cbcState_operand (b : Block) :
    (cbcState b).operand = zeroBlock.toList ++ (Config.cipher.enc b keyZ).toList := by
  have h := loaded_operand (data := zeroBlock.toList ++ (Config.cipher.enc b keyZ).toList) 16 (by simp)
  rwa [List.length_append, Vector.length_toList, Vector.length_toList] at h

theorem ctrState_operand (b : Block) : (ctrState b).operand =
    zeroBlock.toList ++ (xorBlock b (Config.cipher.enc zeroBlock keyZ)).toList := by
  have h := loaded_operand
    (data := zeroBlock.toList ++ (xorBlock b (Config.cipher.enc zeroBlock keyZ)).toList) 16 (by simp)
  rwa [List.length_append, Vector.length_toList, Vector.length_toList] at h

/-- What ECB_DEC has before unpadding, on `ecbState b`. -/
theorem ecbState_plain (b : Block) : ((List.range 1).flatMap fun j =>
    (Config.cipher.dec (bytesAt 16 (ecbState b).operand (16 * j)) (ecbState b).key).toList) = b.toList := by
  have h := bytesAt_first (Config.cipher.enc b keyZ) []
  rw [List.append_nil] at h
  show (Config.cipher.dec (bytesAt 16 (ecbState b).operand 0) keyZ).toList ++ [] = _
  rw [ecbState_operand, h, Config.cipher.dec_enc, List.append_nil]

/-- What CBC_DEC has before unpadding, on `cbcState b`. -/
theorem cbcState_plain (b : Block) : ((List.range 1).flatMap fun i =>
    (xorBlock (Config.cipher.dec (bytesAt 16 (cbcState b).operand (16 * (i + 1))) (cbcState b).key)
      (bytesAt 16 (cbcState b).operand (16 * i))).toList) = b.toList := by
  show (xorBlock (Config.cipher.dec (bytesAt 16 (cbcState b).operand 16) keyZ)
    (bytesAt 16 (cbcState b).operand 0)).toList ++ [] = _
  rw [cbcState_operand, bytesAt_first, bytesAt_second, Config.cipher.dec_enc, xorBlock_zero,
    List.append_nil]

/-- What CTR_DEC has before unpadding, on `ctrState b`. -/
theorem ctrState_plain (b : Block) : ((List.range 1).flatMap fun i =>
    (xorBlock (bytesAt 16 (ctrState b).operand (16 * (i + 1)))
      (Config.cipher.enc (bytesAt 8 (ctrState b).operand 0 ++ be64inv i) (ctrState b).key)).toList) =
    b.toList := by
  have hn : bytesAt 8 (zeroBlock.toList ++ (xorBlock b (Config.cipher.enc zeroBlock keyZ)).toList) 0 ++
      be64inv 0 = zeroBlock := by
    have h : bytesAt 8 (zeroBlock.toList ++ (xorBlock b (Config.cipher.enc zeroBlock keyZ)).toList) 0 =
        Vector.ofFn fun j => zeroBlock[j.val]'(by omega) := by
      apply Vector.ext
      intro j hj
      simp [List.getD, List.getElem?_append, show j < 16 by omega]
    rw [h]
    decide +kernel
  show (xorBlock (bytesAt 16 (ctrState b).operand 16)
    (Config.cipher.enc (bytesAt 8 (ctrState b).operand 0 ++ be64inv 0) keyZ)).toList ++ [] = _
  rw [ctrState_operand, bytesAt_second, hn, xorBlock_cancel, List.append_nil]

/-! ### Witnesses: for each statement with hypotheses, a state that meets them; where a statement has clauses,
each clause at a boundary of its range -/

/-- The lengths at the edges of the capacity check. -/
theorem lengths_at_capacity :
    (loaded Config.cap [] 16).inLen.toNat = Config.cap ∧
    (loaded (Config.cap + 1) [] 16).inLen.toNat = Config.cap + 1 ∧
    (loaded (Config.cap - 1) [] 16).inLen.toNat = Config.cap - 1 ∧
    (loaded (Config.cap - 16) [] 16).inLen.toNat = Config.cap - 16 ∧
    (loaded (Config.cap - 17) [] 16).inLen.toNat = Config.cap - 17 := by
  have h := cap_bounds
  refine ⟨loaded_len _ _ ?_, loaded_len _ _ ?_, loaded_len _ _ ?_, loaded_len _ _ ?_, loaded_len _ _ ?_⟩ <;>
    omega

theorem witness_DecodeInvertsEncode : Instr.ctrDec.wellFormed = true ∧
    decode 0x0000000D = .ok .ctrDec ∧ 0x0000000D#32 &&& maskWord = matchWord .ctrDec := by decide

/-- A reserved `OP`, and `ZERO` not 0: offered by the host, and in progress. -/
theorem witness_ReservedWordCompletesIllegal :
    (∀ i, 0x00000001#32 &&& maskWord ≠ matchWord i) ∧ (∀ i, 0x0000001B#32 &&& maskWord ≠ matchWord i) ∧
    (sched [.host (.regWrite 0 0x0000001B)] State.reset).busy = false ∧
    (busyWith 0x00000001 State.reset).cmdLatch = 0x00000001 ∧
    (busyWith 0x00000001 State.reset).busy = true ∧
    EngineMovesNext (busyWith 0x00000001 State.reset).schedule [] ∧
    EngineMovesNext (sched [.engine, .reset] (busyWith 0x00000001 State.reset)).schedule [.reset] := by
  refine ⟨fun i => ?_, fun i => ?_, rfl, rfl, rfl, .inr ⟨rfl, rfl⟩, .inl rfl⟩ <;> cases i <;> decide

theorem witness_RegReadReturnsValue :
    (sched [.host (.regRead 5)] State.reset).schedule = [.host (.regRead 5)] ∧
    (sched [.host (.regRead 6)] State.reset).schedule = [.host (.regRead 6)] ∧
    (sched [.host (.bufRead .key 15)] State.reset).schedule = [.host (.bufRead .key 15)] := ⟨rfl, rfl, rfl⟩

/-- Each register, idle and busy. -/
theorem witness_RegWriteEffect : ∀ r : Nat,
    (sched [.host (.regWrite r 16)] State.reset).schedule = [.host (.regWrite r 16)] ∧
    (sched [.host (.regWrite r 16)] State.reset).status.getLsbD 0 = false ∧
    (sched [.host (.regWrite r 16)] (busyWith 0x2 State.reset)).status.getLsbD 0 = true :=
  fun _ => ⟨rfl, by show (0#32).getLsbD 0 = false; decide, by show (1#32).getLsbD 0 = true; decide⟩

/-- The last valid index and the first invalid one, and the three cases in which `OUT` reads 0. -/
theorem witness_BufReadReturnsByte :
    Inv (sched [.host (.bufRead .key 15)] State.reset) ∧ 15 < Space.size .key ∧
    Inv (sched [.host (.bufRead .key 16)] State.reset) ∧ Space.size .key ≤ 16 ∧
    Inv (sched [.host (.bufRead .inp (Config.cap - 1))] State.reset) ∧ Config.cap - 1 < Space.size .inp ∧
    Inv (sched [.host (.bufRead .out Config.cap)] State.reset) ∧ Space.size .out ≤ Config.cap ∧
    (sched [.host (.bufRead .out 0)] State.reset).outLen.toNat ≤ 0 ∧
    (Inv (sched [.host (.bufRead .out 0)] (busyWith 0x2 State.reset)) ∧
      (sched [.host (.bufRead .out 0)] (busyWith 0x2 State.reset)).busy = true) ∧
    (Inv (sched [.host (.bufRead .out 0)] (State.reset.completeErr .invalidPadding)) ∧
      (sched [.host (.bufRead .out 0)] (State.reset.completeErr .invalidPadding)).error = true) := by
  have h := cap_bounds
  refine ⟨inv_sched _, by decide, inv_sched _, by decide, inv_sched _, ?_, inv_sched _, ?_, Nat.le_refl 0,
    ⟨inv_sched_busy _ _, rfl⟩, ⟨inv_sched_error _, rfl⟩⟩
  · show Config.cap - 1 < Config.cap
    omega
  · exact Nat.le_refl Config.cap

/-- The last index that is stored to and the first that is not, idle and busy, and `OUT`. -/
theorem witness_BufWriteEffect :
    (Inv (sched [.host (.bufWrite .key 15 1)] State.reset) ∧
      (sched [.host (.bufWrite .key 15 1)] State.reset).busy = false ∧ 15 < Space.size .key) ∧
    (Inv (sched [.host (.bufWrite .inp (Config.cap - 1) 1)] State.reset) ∧ Config.cap - 1 < Space.size .inp) ∧
    (Inv (sched [.host (.bufWrite .inp Config.cap 1)] State.reset) ∧ ¬ Config.cap < Space.size .inp) ∧
    Inv (sched [.host (.bufWrite .out 0 1)] State.reset) ∧
    (Inv (sched [.host (.bufWrite .key 0 1)] (busyWith 0x2 State.reset)) ∧
      (sched [.host (.bufWrite .key 0 1)] (busyWith 0x2 State.reset)).busy = true) := by
  have h := cap_bounds
  refine ⟨⟨inv_sched _, rfl, by decide⟩, ⟨inv_sched _, ?_⟩, ⟨inv_sched _, Nat.lt_irrefl Config.cap⟩, inv_sched _,
    ⟨inv_sched_busy _ _, rfl⟩⟩
  show Config.cap - 1 < Config.cap
  omega

theorem witness_AccessesWhileBusyChangeNothing :
    (sched ([.regWrite 2 5, .bufRead .out 0, .bufWrite .key 0 1, .regRead 1].map Event.host ++ [.engine])
      (busyWith 0x2 State.reset)).busy = true := rfl

theorem witness_CommandAcceptance :
    (sched [.host (.regWrite 0 0x2)] State.reset).busy = false ∧
    (sched [.host (.regWrite 0 0x2)] (busyWith 0x3 State.reset)).busy = true := ⟨rfl, rfl⟩

theorem witness_StepRunsDecodedInstruction :
    ((busyWith 0x2 State.reset).busy = true ∧ decode (busyWith 0x2 State.reset).cmdLatch = .ok .pad ∧
      (busyWith 0x2 State.reset).schedule = []) ∧
    ((sched [.engine] (busyWith 0xD State.reset)).busy = true ∧
      decode (sched [.engine] (busyWith 0xD State.reset)).cmdLatch = .ok .ctrDec) ∧
    decodeTableWord 32 0xD = some .ctrDec := by decide

/-- An operation in progress, one that ends in `Ok` and one that ends in an error; the engine's turn is
scheduled for the one and nothing is for the other. -/
theorem witness_EngineStepRefinesExec :
    ((sched [.engine, .reset] (busyWith 0x2 State.reset)).busy = true ∧
      EngineMovesNext (sched [.engine, .reset] (busyWith 0x2 State.reset)).schedule [.reset] ∧
      (sched [.engine, .reset] (busyWith 0x2 State.reset)).specResult.toOption =
        some (List.replicate 16 0x10)) ∧
    ((busyWith 0x6 State.reset).busy = true ∧ EngineMovesNext (busyWith 0x6 State.reset).schedule [] ∧
      (busyWith 0x6 State.reset).specResult.toOption = none) := by
  refine ⟨⟨rfl, .inl rfl, ?_⟩, ⟨rfl, .inr ⟨rfl, rfl⟩, ?_⟩⟩ <;> decide +kernel

theorem witness_CompletedResultReadsBack : (List.replicate Config.cap (1 : Byte)).length ≤ Config.cap := by simp

theorem witness_EveryCommandCompletes :
    (busyWith 0xFFFFFFFF State.reset).busy = true ∧ EngineMovesNext (busyWith 0xFFFFFFFF State.reset).schedule [] ∧
    EngineMovesNext (sched [.engine] (busyWith 0xFFFFFFFF State.reset)).schedule [] :=
  ⟨rfl, .inr ⟨rfl, rfl⟩, .inl rfl⟩

/-- Every operation answers a next state from every state; CBC_ENC and CTR_ENC succeed with `KEY_LEN` = 16. -/
theorem witness_ExecFrame : (∀ (i : Instr) (s : State), ∃ t, exec i s = .next t) ∧
    (∃ t, exec .cbcEnc (loaded 0 [] 16) = .next t ∧ t.status = 0x00000002) ∧
    (∃ t, exec .ctrEnc (loaded 0 [] 16) = .next t ∧ t.status = 0x00000002) := by
  refine ⟨fun i s => ?_, ⟨_, rfl, by decide +kernel⟩, ⟨_, rfl, by decide +kernel⟩⟩
  obtain ⟨r, d, e, _⟩ := exec_completes i s
  exact ⟨_, e⟩

/-- XOR of an empty operand, with nothing scheduled, and a reserved word, with the engine's turn scheduled. -/
theorem witness_ErrorLeavesNoResult :
    ((busyWith 0x4 State.reset).busy = true ∧ EngineMovesNext (busyWith 0x4 State.reset).schedule [] ∧
      ∃ t, step (busyWith 0x4 State.reset) = .next t ∧ t.status ≠ 0x00000002) ∧
    ((sched [.engine] (busyWith 0x6 State.reset)).busy = true ∧
      EngineMovesNext (sched [.engine] (busyWith 0x6 State.reset)).schedule [] ∧
      ∃ t, step (sched [.engine] (busyWith 0x6 State.reset)) = .next t ∧ t.status ≠ 0x00000002) :=
  ⟨⟨rfl, .inr ⟨rfl, rfl⟩, _, rfl, by decide +kernel⟩, ⟨rfl, .inl rfl, _, rfl, by decide +kernel⟩⟩

/-- Two hosts command PAD of the same operand `41 42 43`; the states differ in the byte after it, in the draw count,
in what the hosts have read and in what they access before the completion. For CBC_ENC and CTR_ENC the draws
agree when their counts do. -/
theorem witness_OutcomeDependsOnlyOnItsInputs :
    let s := { loaded 3 [0x41, 0x42, 0x43] with schedule := [.host (.regWrite 0 0x2)] }
    let s' := { loaded 3 [0x41, 0x42, 0x43, 0x99] with
      draws := 7, replies := [.byte 1]
      schedule := .host (.regWrite 0 0x2) :: ([Access.bufRead .inp 3].map Event.host ++ [.engine, .reset]) }
    s.busy = false ∧ s'.busy = false ∧ s.inLen = s'.inLen ∧
    (∀ j, j < min s.inLen.toNat Config.cap → s.inBuf.read j = s'.inBuf.read j) ∧
    s.keyLen = s'.keyLen ∧ (∀ j, j < 16 → s.keyBuf.read j = s'.keyBuf.read j) ∧
    (0x2 : Word) ≠ 0x0000000A ∧ (0x2 : Word) ≠ 0x0000000C ∧ s.inBuf ≠ s'.inBuf ∧
    (∃ t, Host.Core.run Sys2Proof.core 2 s = .next t) ∧
    EngineMovesNext [] [] ∧ EngineMovesNext [.engine, .reset] [.reset] ∧
    (∃ t, Host.Core.run Sys2Proof.core 3 s' = .next t) ∧
    ∀ n, Config.rand (loaded 3 []).draws n = Config.rand (loaded 5 []).draws n := by
  refine ⟨rfl, rfl, rfl, ?_, rfl, fun _ _ => rfl, by decide, by decide, by decide, ⟨_, rfl⟩, .inr ⟨rfl, rfl⟩,
    .inl rfl, ⟨_, rfl⟩, fun _ => rfl⟩
  intro j hj
  have h : j < 3 := lt_of_lt_of_le hj (Nat.min_le_left _ _)
  interval_cases j <;> rfl

/-- Each line of the priority list, at the ends of its range. -/
theorem witness_CheckPriority :
    (∀ w s events rest, EngineMovesNext events rest → (sched events (busyWith w s)).busy = true ∧
      EngineMovesNext (sched events (busyWith w s)).schedule rest ∧
      ∃ t, step (sched events (busyWith w s)) = .next t) ∧
    (EngineMovesNext [] [] ∧ EngineMovesNext [.engine, .host (.regRead 1)] [.host (.regRead 1)]) ∧
    decode 0x0000001B = .error .zeroFieldNotZero ∧
    (Config.cap < Config.cap + 1 ∧ Config.cap < needOut .pad Config.cap) ∧
    (needOut .unpad Config.cap = Config.cap) ∧
    ((loaded 31 []).inLen.toNat ≠ 32 ∧ (loaded 33 []).inLen.toNat ≠ 32 ∧ (loaded 9 []).inLen.toNat ≠ 8) ∧
    ((loaded 0 [] 15).keyLen.toNat ≠ 16 ∧ (loaded 0 [] 17).keyLen.toNat ≠ 16 ∧
      (loaded 0 [] 0x10010).keyLen.toNat ≠ 16) ∧
    ((loaded 31 [] 16).inLen.toNat < 32 ∧ ¬ (loaded 32 [] 16).inLen.toNat < 32) ∧
    ((loaded 0 [] 16).inLen.toNat = 0 ∧ (loaded 33 [] 16).inLen.toNat % 16 ≠ 0) ∧
    (loaded 32 [] 16).inLen.toNat % 16 = 0 := by
  refine ⟨busyWith_ready, engineMovesNext_both, rfl, ⟨by omega, ?_⟩, rfl, by decide, by decide, by decide,
    by decide, by decide⟩
  show Config.cap < Config.cap + (16 - Config.cap % 16)
  omega

/-- The greatest length that passes the capacity check and the least that does not, in each of the three
groups. -/
theorem witness_CapacityThresholds : (∀ (i : Instr) (s : State), ∃ t, exec i s = .next t) ∧
    (loaded (Config.cap - 1) [] 16).inLen.toNat = Config.cap - 1 ∧
    Config.cap - 1 < (loaded Config.cap [] 16).inLen.toNat ∧
    (loaded (Config.cap - 17) [] 16).inLen.toNat = Config.cap - 17 ∧
    Config.cap - 17 < (loaded (Config.cap - 16) [] 16).inLen.toNat ∧
    (loaded Config.cap [] 16).inLen.toNat = Config.cap ∧
    Config.cap < (loaded (Config.cap + 1) [] 16).inLen.toNat := by
  have h := cap_bounds
  obtain ⟨h1, h2, h3, h4, h5⟩ := lengths_at_capacity
  refine ⟨witness_ExecFrame.1, h3, by omega, h5, by omega, h1, by omega⟩

/-- `q` at the least value that the first clause of rule R80 speaks of. -/
theorem witness_CapacityThresholds_least : 16 % 16 = 0 ∧ 15 < 16 ∧ paddedLen 15 = 16 := by decide

theorem ecbState_completes : exec .ecbDec (ecbState padBlock) = .next ((ecbState padBlock).completeOk []) := by
  rw [exec_ecbDec]
  rcases runMode_cases (ecbState padBlock) .ecbDec (ecbDec Config.cipher) with ⟨h, _⟩ | ⟨_, h, _⟩ | ⟨_, _, e⟩
  · exact absurd h (by decide +kernel)
  · exact absurd rfl h
  · rw [e]
    have ho : (ecbState padBlock).operand.length = 16 := operand_length _
    obtain ⟨C, hC, h⟩ := ecbDec_of_aligned Config.cipher (ecbState padBlock).operand (ecbState padBlock).key
      (by omega) (by omega)
    have hC' : C = [bytesAt 16 (ecbState padBlock).operand 0] := by
      rw [group_of_aligned (by omega), ho] at hC
      exact (Except.ok.inj hC).symm
    have hp := ecbState_plain padBlock
    rw [h, hC']
    have hu : ungroup ([bytesAt 16 (ecbState padBlock).operand 0].map fun y =>
        Config.cipher.dec y (ecbState padBlock).key) = padBlock.toList := hp
    rw [hu, unpad_padBlock]
    rfl

theorem cbcState_completes : exec .cbcDec (cbcState padBlock) = .next ((cbcState padBlock).completeOk []) := by
  rw [exec_cbcDec]
  rcases runMode_cases (cbcState padBlock) .cbcDec (cbcDec Config.cipher) with ⟨h, _⟩ | ⟨_, h, _⟩ | ⟨_, _, e⟩
  · exact absurd h (by decide +kernel)
  · exact absurd rfl h
  · rw [e]
    have ho : (cbcState padBlock).operand.length = 32 := operand_length _
    obtain ⟨C, hC, h⟩ := cbcDec_of_aligned Config.cipher (cbcState padBlock).operand (cbcState padBlock).key
      (by omega) (by omega)
    have hC' : C = [bytesAt 16 (cbcState padBlock).operand 0, bytesAt 16 (cbcState padBlock).operand 16] := by
      rw [group_of_aligned (by omega), ho] at hC
      exact (Except.ok.inj hC).symm
    have hp := cbcState_plain padBlock
    rw [h, hC']
    have hu : ungroup (cbcDecLoop Config.cipher (cbcState padBlock).key (bytesAt 16 (cbcState padBlock).operand 0)
        (([bytesAt 16 (cbcState padBlock).operand 0, bytesAt 16 (cbcState padBlock).operand 16]).drop 1)) =
        padBlock.toList := hp
    rw [hu, unpad_padBlock]
    rfl

theorem ctrState_completes : exec .ctrDec (ctrState padBlock) = .next ((ctrState padBlock).completeOk []) := by
  rw [exec_ctrDec]
  rcases runMode_cases (ctrState padBlock) .ctrDec (ctrDec Config.cipher) with ⟨h, _⟩ | ⟨_, h, _⟩ | ⟨_, _, e⟩
  · exact absurd h (by decide +kernel)
  · exact absurd rfl h
  · rw [e]
    have ho : (ctrState padBlock).operand.length = 32 := operand_length _
    obtain ⟨C, hC, h⟩ := ctrDec_of_aligned Config.cipher (ctrState padBlock).operand (ctrState padBlock).key
      (by omega) (by omega)
    have hC' : C = [bytesAt 16 (ctrState padBlock).operand 0, bytesAt 16 (ctrState padBlock).operand 16] := by
      rw [group_of_aligned (by omega), ho] at hC
      exact (Except.ok.inj hC).symm
    have hp := ctrState_plain padBlock
    have hz : be64inv 0 = counterZero := by decide +kernel
    rw [h, hC']
    have hu : ungroup (ctrLoop Config.cipher (ctrState padBlock).key (bytesAt 8 (ctrState padBlock).operand 0)
        counterZero
        (([bytesAt 16 (ctrState padBlock).operand 0, bytesAt 16 (ctrState padBlock).operand 16]).drop 1)) =
        padBlock.toList := by
      rw [← hz]
      exact hp
    rw [hu, unpad_padBlock]
    rfl

/-- A state from which each operation succeeds. -/
theorem witness_ResultLengths :
    (∃ t, exec .pad (loaded 0 []) = .next t ∧ t.status = 0x00000002) ∧
    (∃ t, exec .unpad (loaded 1 [1]) = .next t ∧ t.status = 0x00000002) ∧
    (∃ t, exec .xor (loaded 32 []) = .next t ∧ t.status = 0x00000002) ∧
    (∃ t, exec .inc (loaded 8 []) = .next t ∧ t.status = 0x00000002) ∧
    (∃ t, exec .ecbEnc (loaded 16 [] 16) = .next t ∧ t.status = 0x00000002) ∧
    (∃ t, exec .ecbDec (ecbState padBlock) = .next t ∧ t.status = 0x00000002) ∧
    (∃ t, exec .cbcEnc (loaded 15 [] 16) = .next t ∧ t.status = 0x00000002) ∧
    (∃ t, exec .cbcDec (cbcState padBlock) = .next t ∧ t.status = 0x00000002) ∧
    (∃ t, exec .ctrEnc (loaded 17 [] 16) = .next t ∧ t.status = 0x00000002) ∧
    (∃ t, exec .ctrDec (ctrState padBlock) = .next t ∧ t.status = 0x00000002) := by
  refine ⟨⟨_, rfl, ?_⟩, ⟨_, rfl, ?_⟩, ⟨_, rfl, ?_⟩, ⟨_, rfl, ?_⟩, ⟨_, rfl, ?_⟩, ⟨_, ecbState_completes, rfl⟩,
    ⟨_, rfl, ?_⟩, ⟨_, cbcState_completes, rfl⟩, ⟨_, rfl, ?_⟩, ⟨_, ctrState_completes, rfl⟩⟩ <;> decide +kernel

/-- A change by an accepted command, by a completion and by a reset. -/
theorem witness_ResultStateChangesOnlyByCommandCompletionReset :
    (∃ t, step (sched [.host (.regWrite 0 0x2)] State.reset) = .next t ∧ t.status ≠ State.reset.status) ∧
    (∃ t, step (busyWith 0x2 State.reset) = .next t ∧ t.outLen ≠ 0) ∧
    (∃ t, step (sched [.reset] (busyWith 0x2 State.reset)) = .next t ∧ t.status ≠ 0x00000001) := by
  refine ⟨⟨_, rfl, ?_⟩, ⟨_, rfl, ?_⟩, ⟨_, rfl, ?_⟩⟩ <;> decide +kernel

/-- A change of each of the four places, the buffers at their last index. -/
theorem witness_OperandStateChangesOnlyByHostOrReset :
    (∃ t, step (sched [.host (.regWrite 2 5)] State.reset) = .next t ∧ t.inLen ≠ State.reset.inLen) ∧
    (∃ t, step (sched [.host (.regWrite 4 16)] State.reset) = .next t ∧ t.keyLen ≠ State.reset.keyLen) ∧
    (∃ t, step (sched [.host (.bufWrite .inp 1023 1)] State.reset) = .next t ∧ t.inBuf ≠ State.reset.inBuf) ∧
    (∃ t, step (sched [.host (.bufWrite .key 15 1)] State.reset) = .next t ∧ t.keyBuf ≠ State.reset.keyBuf) ∧
    (∀ e rest, (sched [.host (.regWrite 2 5)] State.reset).schedule ≠ .reset :: (e :: rest)) := by
  have h := cap_bounds
  refine ⟨⟨_, rfl, by decide⟩, ⟨_, rfl, by decide⟩, ⟨_, rfl, ?_⟩, ⟨_, rfl, by decide +kernel⟩, by intro e rest h; cases h⟩
  have hi : 1023 ≤ Config.cap - 1 := by omega
  simp [State.access, State.bufWrite, sched, State.reset, State.busy, hi, Memory.write]

theorem witness_StepKeepsInv : Inv (sched [.host (.bufWrite .key 15 1)] State.reset) ∧
    ∃ t, step (sched [.host (.bufWrite .key 15 1)] State.reset) = .next t := ⟨inv_sched _, _, rfl⟩

theorem witness_EveryRunIsSafe : Inv (sched [.host (.regWrite 0 0x5), .engine, .reset] State.reset) := inv_sched _

/-- Busy with nothing scheduled, and with accesses before the engine's turn. -/
theorem witness_BusyEventuallyClears : (busyWith 0x2 State.reset).busy = true ∧
    (sched [.host (.regRead 1), .host (.regWrite 0 0x3)] (busyWith 0x2 State.reset)).busy = true := ⟨rfl, rfl⟩

/-- A reset while an operation is in progress. -/
theorem witness_ResetClearsEverything :
    (sched [.reset] (busyWith 0xA (loaded 3 [1, 2, 3] 16))).schedule = [.reset] := rfl

theorem witness_ResetLeavesZeroAndNoKey :
    let s := { State.reset with
      draws := 3, schedule := [.host (.regWrite 0 (encode .ctrDec)), .engine, .reset], replies := [.byte 7] }
    Instr.ctrDec ∈ [Instr.ecbEnc, .ecbDec, .cbcEnc, .cbcDec, .ctrEnc, .ctrDec] ∧
    s = { State.reset with draws := s.draws, schedule := s.schedule, replies := s.replies } ∧
    s.schedule = .host (.regWrite 0 (encode .ctrDec)) :: [.engine, .reset] ∧
    EngineMovesNext [.engine, .reset] [.reset] ∧ EngineMovesNext [] [] := by
  refine ⟨by decide, by decide, by decide, .inl rfl, .inr ⟨rfl, rfl⟩⟩

theorem witness_CipherIsBijective : rotAdd.enc padBlock keyK0 = rotAdd.enc padBlock keyK0 := rfl

theorem witness_PadOperation : Config.cap - 1 < (loaded Config.cap []).inLen.toNat ∧
    (loaded (Config.cap - 1) []).inLen.toNat ≤ Config.cap - 1 ∧ (loaded 0 []).inLen.toNat ≤ Config.cap - 1 := by
  have h := cap_bounds
  rw [loaded_len _ _ (by omega), loaded_len _ _ (by omega), loaded_len _ _ (by omega)]
  omega

/-- One byte over the capacity; the shortest and the longest padding; an empty operand. -/
theorem witness_UnpadOperation : Config.cap < (loaded (Config.cap + 1) []).inLen.toNat ∧
    ((loaded 1 [1]).inLen.toNat ≤ Config.cap ∧ (loaded 1 [1]).operand = [] ++ List.replicate 1 (BitVec.ofNat 8 1)) ∧
    (loaded 16 (List.replicate 16 0x10)).operand = [] ++ List.replicate 16 (BitVec.ofNat 8 16) ∧
    ((loaded 0 []).inLen.toNat ≤ Config.cap ∧ ¬ ∃ (y : Bytes) (k : Nat), 1 ≤ k ∧ k ≤ 16 ∧
      (loaded 0 []).operand = y ++ List.replicate k (BitVec.ofNat 8 k)) := by
  have h := cap_bounds
  rw [loaded_len _ _ (by omega), loaded_len _ _ (by omega), loaded_len _ _ (by omega)]
  refine ⟨by omega, ⟨by omega, loaded_operand 0 (by decide)⟩, loaded_operand (data := List.replicate 16 0x10) 0 (by decide),
    by omega, ?_⟩
  rintro ⟨y, k, h1, _, h3⟩
  have h4 := congrArg List.length h3
  have h5 : (loaded 0 []).operand = [] := loaded_operand (data := []) 0 (by decide)
  rw [h5] at h4
  simp at h4
  omega

theorem witness_XorOperation : Config.cap < (loaded (Config.cap + 1) []).inLen.toNat ∧
    ((loaded 31 []).inLen.toNat ≤ Config.cap ∧ (loaded 31 []).inLen.toNat ≠ 32) ∧
    ((loaded Config.cap []).inLen.toNat ≤ Config.cap ∧ (loaded Config.cap []).inLen.toNat ≠ 32) ∧
    (loaded 32 []).inLen.toNat = 32 := by
  have h := cap_bounds
  rw [loaded_len _ _ (by omega), loaded_len _ _ (by omega), loaded_len _ _ (by omega), loaded_len _ _ (by omega)]
  omega

theorem witness_IncOperation : Config.cap < (loaded (Config.cap + 1) []).inLen.toNat ∧
    ((loaded 7 []).inLen.toNat ≤ Config.cap ∧ (loaded 7 []).inLen.toNat ≠ 8) ∧
    ((loaded 9 []).inLen.toNat ≤ Config.cap ∧ (loaded 9 []).inLen.toNat ≠ 8) ∧
    (loaded 8 []).inLen.toNat = 8 := by
  have h := cap_bounds
  rw [loaded_len _ _ (by omega), loaded_len _ _ (by omega), loaded_len _ _ (by omega), loaded_len _ _ (by omega)]
  omega

theorem witness_EcbEncOperation : Config.cap - 1 < (loaded Config.cap [] 16).inLen.toNat ∧
    ((loaded 0 [] 15).inLen.toNat ≤ Config.cap - 1 ∧ (loaded 0 [] 15).keyLen ≠ 16) ∧
    ((loaded (Config.cap - 1) [] 16).inLen.toNat ≤ Config.cap - 1 ∧ (loaded (Config.cap - 1) [] 16).keyLen = 16) := by
  have h := cap_bounds
  rw [loaded_len _ _ (by omega), loaded_len _ _ (by omega), loaded_len _ _ (by omega)]
  exact ⟨by omega, ⟨by omega, by decide⟩, by omega, rfl⟩

/-- Each clause; the last two with an operand whose block decrypts to a padding, and to none. -/
theorem witness_EcbDecOperation : Config.cap < (loaded (Config.cap + 1) [] 16).inLen.toNat ∧
    ((loaded 16 [] 17).inLen.toNat ≤ Config.cap ∧ (loaded 16 [] 17).keyLen ≠ 16) ∧
    ((loaded 0 [] 16).inLen.toNat = 0 ∧ (loaded 17 [] 16).inLen.toNat % 16 ≠ 0 ∧
      (loaded 17 [] 16).inLen.toNat ≤ Config.cap) ∧
    (∀ b, (ecbState b).inLen.toNat ≤ Config.cap ∧ (ecbState b).keyLen = 16 ∧ (ecbState b).inLen.toNat = 16) ∧
    unpad ((List.range 1).flatMap fun j => (Config.cipher.dec
      (bytesAt 16 (ecbState padBlock).operand (16 * j)) (ecbState padBlock).key).toList) = .ok [] ∧
    unpad ((List.range 1).flatMap fun j => (Config.cipher.dec
      (bytesAt 16 (ecbState zeroBlock).operand (16 * j)) (ecbState zeroBlock).key).toList) =
        .error .invalidPadding := by
  have h := cap_bounds
  refine ⟨by rw [loaded_len _ _ (by omega)]; omega, ⟨?_, by decide⟩, ⟨by decide, by decide, ?_⟩, fun b => ⟨?_, rfl, rfl⟩,
    by rw [ecbState_plain]; exact unpad_padBlock, by rw [ecbState_plain]; exact unpad_zeroBlock⟩
  · show 16 ≤ Config.cap
    omega
  · show 17 ≤ Config.cap
    omega
  · show 16 ≤ Config.cap
    omega

theorem witness_CbcEncOperation : Config.cap - 17 < (loaded (Config.cap - 16) [] 16).inLen.toNat ∧
    ((loaded 0 [] 0).inLen.toNat ≤ Config.cap - 17 ∧ (loaded 0 [] 0).keyLen ≠ 16) ∧
    ((loaded (Config.cap - 17) [] 16).inLen.toNat ≤ Config.cap - 17 ∧ (loaded (Config.cap - 17) [] 16).keyLen = 16) := by
  have h := cap_bounds
  rw [loaded_len _ _ (by omega), loaded_len _ _ (by omega), loaded_len _ _ (by omega)]
  exact ⟨by omega, ⟨by omega, by decide⟩, by omega, rfl⟩

theorem witness_CbcDecOperation : Config.cap < (loaded (Config.cap + 1) [] 16).inLen.toNat ∧
    ((loaded 5 [] 0).inLen.toNat ≤ Config.cap ∧ (loaded 5 [] 0).keyLen ≠ 16) ∧
    ((loaded 31 [] 16).keyLen = 16 ∧ (loaded 31 [] 16).inLen.toNat < 32) ∧
    ((loaded 33 [] 16).inLen.toNat ≤ Config.cap ∧ 32 ≤ (loaded 33 [] 16).inLen.toNat ∧
      (loaded 33 [] 16).inLen.toNat % 16 ≠ 0) ∧
    (∀ b, (cbcState b).inLen.toNat ≤ Config.cap ∧ (cbcState b).keyLen = 16 ∧ (cbcState b).inLen.toNat = 32) ∧
    unpad ((List.range 1).flatMap fun i => (xorBlock
      (Config.cipher.dec (bytesAt 16 (cbcState padBlock).operand (16 * (i + 1))) (cbcState padBlock).key)
      (bytesAt 16 (cbcState padBlock).operand (16 * i))).toList) = .ok [] ∧
    unpad ((List.range 1).flatMap fun i => (xorBlock
      (Config.cipher.dec (bytesAt 16 (cbcState zeroBlock).operand (16 * (i + 1))) (cbcState zeroBlock).key)
      (bytesAt 16 (cbcState zeroBlock).operand (16 * i))).toList) = .error .invalidPadding := by
  have h := cap_bounds
  refine ⟨by rw [loaded_len _ _ (by omega)]; omega, ⟨?_, by decide⟩, ⟨rfl, by decide⟩, ⟨?_, by decide, by decide⟩,
    fun b => ⟨?_, rfl, rfl⟩,
    by rw [cbcState_plain]; exact unpad_padBlock, by rw [cbcState_plain]; exact unpad_zeroBlock⟩
  · show 5 ≤ Config.cap
    omega
  · show 33 ≤ Config.cap
    omega
  · show 32 ≤ Config.cap
    omega

theorem witness_CtrEncOperation : Config.cap - 17 < (loaded (Config.cap - 16) [] 16).inLen.toNat ∧
    ((loaded 16 [] 15).inLen.toNat ≤ Config.cap - 17 ∧ (loaded 16 [] 15).keyLen ≠ 16) ∧
    ((loaded (Config.cap - 17) [] 16).inLen.toNat ≤ Config.cap - 17 ∧ (loaded (Config.cap - 17) [] 16).keyLen = 16) := by
  have h := cap_bounds
  rw [loaded_len _ _ (by omega), loaded_len _ _ (by omega), loaded_len _ _ (by omega)]
  exact ⟨by omega, ⟨by omega, by decide⟩, by omega, rfl⟩

theorem witness_CtrDecOperation : Config.cap < (loaded (Config.cap + 1) [] 16).inLen.toNat ∧
    ((loaded 40 [] 17).inLen.toNat ≤ Config.cap ∧ (loaded 40 [] 17).keyLen ≠ 16) ∧
    ((loaded 31 [] 16).keyLen = 16 ∧ (loaded 31 [] 16).inLen.toNat < 32) ∧
    ((loaded 40 [] 16).inLen.toNat ≤ Config.cap ∧ 32 ≤ (loaded 40 [] 16).inLen.toNat ∧
      (loaded 40 [] 16).inLen.toNat % 16 ≠ 0) ∧
    (∀ b, (ctrState b).inLen.toNat ≤ Config.cap ∧ (ctrState b).keyLen = 16 ∧ (ctrState b).inLen.toNat = 32) ∧
    unpad ((List.range 1).flatMap fun i => (xorBlock (bytesAt 16 (ctrState padBlock).operand (16 * (i + 1)))
      (Config.cipher.enc (bytesAt 8 (ctrState padBlock).operand 0 ++ be64inv i) (ctrState padBlock).key)).toList) =
        .ok [] ∧
    unpad ((List.range 1).flatMap fun i => (xorBlock (bytesAt 16 (ctrState zeroBlock).operand (16 * (i + 1)))
      (Config.cipher.enc (bytesAt 8 (ctrState zeroBlock).operand 0 ++ be64inv i) (ctrState zeroBlock).key)).toList) =
        .error .invalidPadding := by
  have h := cap_bounds
  refine ⟨by rw [loaded_len _ _ (by omega)]; omega, ⟨?_, by decide⟩, ⟨rfl, by decide⟩, ⟨?_, by decide, by decide⟩,
    fun b => ⟨?_, rfl, rfl⟩,
    by rw [ctrState_plain]; exact unpad_padBlock, by rw [ctrState_plain]; exact unpad_zeroBlock⟩
  · show 40 ≤ Config.cap
    omega
  · show 40 ≤ Config.cap
    omega
  · show 32 ≤ Config.cap
    omega

/-- The least `q` the clause speaks of, and the empty operand. -/
theorem witness_PadAppendsCount : 16 % 16 = 0 ∧ ([] : Bytes).length < 16 ∧
    pad [] = List.replicate 16 0x10 := by decide

theorem witness_UnpadAcceptsExactlyConsistentPadding :
    (unpad [1]).toOption = some [] ∧ (unpad (List.replicate 16 0x10)).toOption = some [] ∧
    ∀ (y : Bytes) (k : Nat), 1 ≤ k → k ≤ 16 → [0x11] ≠ y ++ List.replicate k (BitVec.ofNat 8 k) := by
  refine ⟨by decide +kernel, by decide +kernel, ?_⟩
  intro y k h1 h2 h
  have hl := congrArg List.length h
  simp at hl
  obtain rfl : k = 1 := by omega
  obtain rfl : y = [] := List.eq_nil_of_length_eq_zero (by omega)
  exact absurd h (by decide)

theorem witness_PadUnpadLaws : (List.replicate 16 (0x41 : Byte)).length = 16 ∧
    (unpad (pad [0x41])).toOption = some [0x41] ∧ (unpad [0x41, 0x02, 0x02]).toOption = some [0x41] := by
  decide +kernel

/-- `v` at both ends of each range. -/
theorem witness_ForgedPaddingRefused : ((0x00 : Byte) = 0 ∧ 16 < (0x11 : Byte).toNat ∧ 16 < (0xFF : Byte).toNat) ∧
    (1 ≤ (0x01 : Byte).toNat ∧ (0x01 : Byte).toNat ≤ 16 ∧ (0x01 : Byte).toNat ≠ 16 - [(0x41 : Byte)].length % 16) ∧
    ((0x10 : Byte).toNat ≤ 16 ∧ (0x10 : Byte).toNat ≠ 16 - [(0x41 : Byte)].length % 16) := by decide

theorem witness_GroupUngroupInverse : (List.replicate 17 (0 : Byte)).length % 16 ≠ 0 ∧
    (List.replicate 15 (0 : Byte)).length % 16 ≠ 0 ∧ (List.replicate 32 (0 : Byte)).length % 16 = 0 ∧
    ([] : Bytes).length % 16 = 0 := by decide

/-- All bytes `0xFF`; the carry stopping at byte 0; no carry. -/
theorem witness_IncNumberAndByteForms :
    (∀ j : Fin 8, (Vector.replicate 8 (0xFF : Byte))[j] = 0xFF) ∧
    ((#v[0x00, 0xFF, 0xFF, 0xFF, 0xFF, 0xFF, 0xFF, 0xFF] : Half)[0] ≠ 0xFF ∧ ∀ m : Fin 8, (0 : Fin 8) < m →
      (#v[0x00, 0xFF, 0xFF, 0xFF, 0xFF, 0xFF, 0xFF, 0xFF] : Half)[m] = 0xFF) ∧
    (#v[0, 0, 0, 0, 0, 0, 0, 0xFE] : Half)[7] ≠ 0xFF := by decide

/-- The first and the last block of a 31-byte plaintext. -/
theorem witness_EcbEqualBlocksLeak_draws : ∃ t, exec .ecbEnc State.reset = .next t := ⟨_, rfl⟩

theorem witness_EcbEqualBlocksLeak :
    0 < (List.replicate 31 (0x41 : Byte)).length / 16 + 1 ∧ 1 < (List.replicate 31 (0x41 : Byte)).length / 16 + 1 := by
  decide

theorem witness_CtrRoundTrip : ∀ b k, rotAdd.enc b k = rotAdd.enc b k := fun _ _ => rfl

/-- What an operation left, loaded as the next operand. -/
def reloaded (t : State) : State := { State.reset with inLen := t.outLen, keyLen := 16, inBuf := t.outBuf }

theorem witness_MachineRoundTrip : ∀ forward ∈ [Instr.pad, .ecbEnc, .cbcEnc, .ctrEnc],
    ∃ t, exec forward (loaded 3 [0x41, 0x42, 0x43] 16) = .next t ∧ t.status = 0x00000002 ∧
      (reloaded t).inLen = t.outLen ∧
      (∀ j, j < t.outLen.toNat → (reloaded t).inBuf.read j = t.outBuf.read j) ∧
      (reloaded t).keyLen = (loaded 3 [0x41, 0x42, 0x43] 16).keyLen ∧
      (∀ j, j < 16 → (reloaded t).keyBuf.read j = (loaded 3 [0x41, 0x42, 0x43] 16).keyBuf.read j) := by
  intro forward h
  simp only [List.mem_cons, List.not_mem_nil, or_false] at h
  rcases h with rfl | rfl | rfl | rfl <;>
    exact ⟨_, rfl, by decide +kernel, rfl, fun _ _ => rfl, rfl, fun _ _ => rfl⟩

/-- B9r, whose plaintext is 16 bytes long, and the last byte of the IV. -/
theorem witness_CbcIvMalleable : ∃ x, (cbcDec rotAdd (up 0xA0 16 ++ up 0x90 16 ++ [0x81, 0x83, 0x85, 0x87, 0x89,
      0x8B, 0x8D, 0x8F, 0x91, 0x93, 0x95, 0x97, 0x99, 0x9B, 0x9D, 0x8F]) keyK0).toOption = some x ∧
    15 < 16 ∧ 15 < x.length := ⟨_, test_cbcDec, by decide, by decide⟩

/-- T8r: the last byte of the message, and both ends of the reserved bytes. -/
theorem witness_CtrMalleable : ∃ x, (ctrDec rotAdd (up 0xC0 8 ++ List.replicate 8 0xEE ++ [0x80, 0x81, 0x86, 0xCA,
      0xC4, 0xC6, 0xC0, 0x0A, 0x05, 0x04, 0x07, 0x06, 0x01, 0x00, 0x03, 0xC2]) keyK0).toOption = some x ∧
    2 < x.length ∧ 8 ≤ 8 ∧ 15 < 16 := ⟨_, test_ctrDec, by decide, by decide, by decide⟩

/-- The last byte of the one block. -/
theorem witness_CtrNonceReuseCancelsKeystream : 15 < (pad [0x41]).length ∧ 15 < (pad [0x42, 0x43]).length := by decide

end Sys2Proof.Tests
end

/-! The state family: what an operation reads of the state (rule R38), and the state after reset
(rule R40). -/

namespace Sys2Proof.Machine

/-! ### Commands and accesses, as steps of a run -/

/-- A scheduled host access is the next step (rules R56, R63). -/
theorem step_host {s : State} {a : Access} {rest : List Event} (h : s.schedule = .host a :: rest) :
    step s = .next ({ s with schedule := rest }.access a) := by
  unfold step nextEvent
  rw [h]
  rfl

/-- A `CMD` write in an idle state is accepted (rule R77). -/
theorem step_command {s : State} {w : Word} {rest : List Event} (hidle : s.busy = false)
    (h : s.schedule = .host (.regWrite 0 w) :: rest) :
    step s = .next ({ s with schedule := rest }.accept w) := by
  rw [step_host h]
  rcases { s with schedule := rest }.command_cases w with ⟨hbusy, _⟩ | ⟨_, e⟩
  · exact absurd hbusy (Bool.eq_false_iff.1 hidle)
  · exact congrArg _ e

/-- While busy a host access changes no field but the model's own `replies` (rules R54, R58). -/
theorem State.access_of_busy {s : State} (h : s.busy = true) (a : Access) :
    ∃ rs, s.access a = { s with replies := rs } := by
  cases a with
  | regRead r => exact ⟨_, rfl⟩
  | bufRead sp i => exact ⟨_, rfl⟩
  | regWrite r v => exact ⟨s.replies, State.regWrite_of_busy h r v⟩
  | bufWrite sp i b => exact ⟨s.replies, State.bufWrite_of_busy h sp i b⟩

/-- While busy a run of host accesses changes nothing but the schedule and the replies (rule R58). -/
theorem run_accesses_of_busy (accesses : List Access) (k : Nat) {s : State} {events : List Event}
    (hbusy : s.busy = true) (h : s.schedule = accesses.map Event.host ++ events) :
    ∃ rs, Host.Core.run Sys2Proof.core (accesses.length + k) s =
      Host.Core.run Sys2Proof.core k { s with schedule := events, replies := rs } := by
  induction accesses generalizing s with
  | nil =>
    have hs : s.schedule = events := h
    subst hs
    exact ⟨s.replies, by rw [List.length_nil, Nat.zero_add]⟩
  | cons a accesses ih =>
    obtain ⟨rs, ha⟩ := State.access_of_busy
      (s := { s with schedule := accesses.map Event.host ++ events }) hbusy a
    obtain ⟨rs', hrun⟩ := ih
      (s := { s with schedule := accesses.map Event.host ++ events, replies := rs }) hbusy rfl
    refine ⟨rs', ?_⟩
    rw [List.length_cons, Nat.add_right_comm, run_next _ ((step_host h).trans (congrArg _ ha)), hrun]

/-! ### The result of an operation, as a function of the state -/

/-- The result with which operation `i` completes in the state `s`: the common checks, then the
operation's own function. -/
def State.execResult (s : State) : Instr → Result
  | .pad => s.utilityOperand .pad >>= padOp
  | .unpad => s.utilityOperand .unpad >>= unpadOp
  | .xor => s.utilityOperand .xor >>= xorOp
  | .inc => s.utilityOperand .inc >>= incOp
  | .ecbEnc => s.modeOperand .ecbEnc >>= fun x => ecbEnc Config.cipher x.1 x.2
  | .ecbDec => s.modeOperand .ecbDec >>= fun x => ecbDec Config.cipher x.1 x.2
  | .cbcEnc => s.modeOperand .cbcEnc >>= fun x => cbcEnc Config.cipher x.1 x.2 (Config.rand s.draws 16)
  | .cbcDec => s.modeOperand .cbcDec >>= fun x => cbcDec Config.cipher x.1 x.2
  | .ctrEnc => s.modeOperand .ctrEnc >>= fun x => ctrEnc Config.cipher x.1 x.2 (Config.rand s.draws 8)
  | .ctrDec => s.modeOperand .ctrDec >>= fun x => ctrDec Config.cipher x.1 x.2

/-- The result with which the command word `w` completes; a reserved word has `IllegalOperation`
(rule R178). -/
def State.resultOf (s : State) (w : Word) : Result :=
  match decode w with
  | .ok i => s.execResult i
  | .error _ => .error .illegalOperation

theorem State.resultOf_ok {w : Word} {i : Instr} (s : State) (h : decode w = .ok i) :
    s.resultOf w = s.execResult i := by
  simp only [State.resultOf, h]

theorem State.resultOf_error {w : Word} {e : DecodeError} (s : State) (h : decode w = .error e) :
    s.resultOf w = .error .illegalOperation := by
  simp only [State.resultOf, h]

theorem runUtility_eq_complete (s : State) (i : Instr) (f : Bytes → Result) :
    s.runUtility i f = s.complete (s.utilityOperand i >>= f) := by
  unfold State.runUtility
  cases s.utilityOperand i <;> rfl

theorem runMode_eq_complete (s : State) (i : Instr) (f : Bytes → Key → Result) :
    s.runMode i f = s.complete (s.modeOperand i >>= fun x => f x.1 x.2) := by
  unfold State.runMode
  cases s.modeOperand i <;> rfl

theorem runModeDraw_eq_complete (s : State) (i : Instr) (n : Nat)
    (f : Bytes → Key → ByteVec n → Result) :
    ∃ d, s.runModeDraw i n f = { s with draws := d }.complete
      (s.modeOperand i >>= fun x => f x.1 x.2 (Config.rand s.draws n)) := by
  unfold State.runModeDraw
  cases s.modeOperand i with
  | error K => exact ⟨s.draws, rfl⟩
  | ok x => exact ⟨s.draws + 1, rfl⟩

/-- `exec` completes with `execResult`; beside that only the draw count may change. -/
theorem exec_eq_complete (i : Instr) (s : State) :
    ∃ d, exec i s = .next ({ s with draws := d }.complete (s.execResult i)) := by
  cases i
  case pad => exact ⟨s.draws, congrArg _ (runUtility_eq_complete ..)⟩
  case unpad => exact ⟨s.draws, congrArg _ (runUtility_eq_complete ..)⟩
  case xor => exact ⟨s.draws, congrArg _ (runUtility_eq_complete ..)⟩
  case inc => exact ⟨s.draws, congrArg _ (runUtility_eq_complete ..)⟩
  case ecbEnc => exact ⟨s.draws, congrArg _ (runMode_eq_complete ..)⟩
  case ecbDec => exact ⟨s.draws, congrArg _ (runMode_eq_complete ..)⟩
  case cbcEnc => exact (runModeDraw_eq_complete ..).imp fun _ => congrArg _
  case cbcDec => exact ⟨s.draws, congrArg _ (runMode_eq_complete ..)⟩
  case ctrEnc => exact (runModeDraw_eq_complete ..).imp fun _ => congrArg _
  case ctrDec => exact ⟨s.draws, congrArg _ (runMode_eq_complete ..)⟩

/-- The completion step (rule R79) completes with the result of the latched word. -/
theorem engineTurn_of_busy {s : State} (hbusy : s.busy = true) :
    ∃ d, engineTurn s = .next ({ s with draws := d }.complete (s.resultOf s.cmdLatch)) := by
  rcases engineTurn_cases s with ⟨hidle, _⟩ | ⟨_, i, hd, e⟩ | ⟨_, _, hd, e⟩
  · exact absurd hbusy (Bool.eq_false_iff.1 hidle)
  · rw [e, s.resultOf_ok hd]
    exact exec_eq_complete i s
  · exact ⟨s.draws, by rw [e, s.resultOf_error hd]; rfl⟩

/-! ### What the result depends on -/

/-- The two states agree on what an operation reads, the draw apart (rule R38). -/
structure SameInputs (s s' : State) : Prop where
  inLen : s.inLen = s'.inLen
  inBuf : ∀ j, j < min s.inLen.toNat Config.cap → s.inBuf.read j = s'.inBuf.read j
  keyLen : s.keyLen = s'.keyLen
  keyBuf : ∀ j, j < 16 → s.keyBuf.read j = s'.keyBuf.read j

namespace SameInputs
variable {s s' : State}

theorem operandLen_eq (h : SameInputs s s') : s.operandLen = s'.operandLen :=
  congrArg BitVec.toNat h.inLen

/-- An operand that passes the capacity check lies within `IN[0..min(IN_LEN, CAP))`. -/
theorem operand_eq (h : SameInputs s s') {i : Instr}
    (hfit : exceedsCap Config.cap i s.operandLen = false) : s.operand = s'.operand := by
  have hcap : s.operandLen ≤ Config.cap :=
    Nat.le_of_not_lt fun hlt => by simp [(exceedsCap_iff _ i _).2 (.inl hlt)] at hfit
  refine List.ext_getElem (by simp [h.operandLen_eq]) fun j hj hj' => ?_
  rw [operand_length] at hj
  rw [operand_getElem, operand_getElem]
  exact h.inBuf j (lt_min hj (hj.trans_le hcap))

theorem key_eq (h : SameInputs s s') : s.key = s'.key :=
  Vector.ext fun j hj => by rw [key_getElem _ _ hj, key_getElem _ _ hj, h.keyBuf j hj]

theorem utilityOperand_eq (h : SameInputs s s') (i : Instr) :
    s.utilityOperand i = s'.utilityOperand i := by
  rcases utilityOperand_cases s i with ⟨hc, e⟩ | ⟨hc, e⟩
  · rw [e, State.utilityOperand, ← h.operandLen_eq, if_pos hc]
  · rw [e, h.operand_eq hc, State.utilityOperand, ← h.operandLen_eq, hc, if_neg Bool.false_ne_true]

theorem modeOperand_eq (h : SameInputs s s') (i : Instr) : s.modeOperand i = s'.modeOperand i := by
  unfold State.modeOperand
  rw [← h.operandLen_eq, ← h.keyLen, ← h.key_eq]
  cases hc : exceedsCap Config.cap i s.operandLen with
  | true => rfl
  | false => rw [h.operand_eq hc]

/-- The result of an operation reads the draw only in CBC_ENC and CTR_ENC. -/
theorem execResult_eq (h : SameInputs s s') (i : Instr)
    (hcbc : i = .cbcEnc → Config.rand s.draws 16 = Config.rand s'.draws 16)
    (hctr : i = .ctrEnc → Config.rand s.draws 8 = Config.rand s'.draws 8) :
    s.execResult i = s'.execResult i := by
  cases i
  case cbcEnc => simp only [State.execResult, h.modeOperand_eq, hcbc rfl]
  case ctrEnc => simp only [State.execResult, h.modeOperand_eq, hctr rfl]
  all_goals simp only [State.execResult, h.utilityOperand_eq, h.modeOperand_eq]

end SameInputs

theorem eq_encodeOp_of_decodeOp {op : BitVec 4} {i : Instr} (h : decodeOp op = .ok i) :
    op = encodeOp i := by
  revert op
  cases i <;> decide

/-- A word is its field `ZERO` above its field `OP` (rule R70). -/
theorem zeroField_append_opField (w : Word) : zeroField w ++ opField w = w := by
  unfold zeroField opField
  exact (BitVec.extractLsb'_append_extractLsb'_eq_extractLsb' (by omega)).trans BitVec.extractLsb'_eq_self

/-- An operation has one command word only (rule R72). -/
theorem eq_encode_of_decode {w : Word} {i : Instr} (h : decode w = .ok i) : w = encode i := by
  unfold decode at h
  split at h
  · cases h
  · next hz =>
    rw [← zeroField_append_opField w, not_not.1 hz, eq_encodeOp_of_decodeOp h]
    rfl

/-- Rule R38 for one command word, on the results. -/
theorem SameInputs.resultOf_eq {s s' : State} (h : SameInputs s s') (w : Word)
    (hcbc : w = 0x0000000A → Config.rand s.draws 16 = Config.rand s'.draws 16)
    (hctr : w = 0x0000000C → Config.rand s.draws 8 = Config.rand s'.draws 8) :
    s.resultOf w = s'.resultOf w := by
  cases hd : decode w with
  | error e => rw [s.resultOf_error hd, s'.resultOf_error hd]
  | ok i =>
    have hw := eq_encode_of_decode hd
    rw [s.resultOf_ok hd, s'.resultOf_ok hd]
    exact h.execResult_eq i (fun hi => hcbc (by rw [hw, hi]; rfl)) fun hi => hctr (by rw [hw, hi]; rfl)

/-- A result does not depend on `STATUS`, on `OUT`, on the latch or on what is scheduled. -/
theorem State.resultOf_eq_of_fields_eq {s s' : State} (w : Word) (hinLen : s.inLen = s'.inLen)
    (hinBuf : s.inBuf = s'.inBuf) (hkeyLen : s.keyLen = s'.keyLen) (hkeyBuf : s.keyBuf = s'.keyBuf)
    (hdraws : s.draws = s'.draws) : s.resultOf w = s'.resultOf w :=
  SameInputs.resultOf_eq ⟨hinLen, fun _ _ => by rw [hinBuf], hkeyLen, fun _ _ => by rw [hkeyBuf]⟩ w
    (fun _ => by rw [hdraws]) fun _ => by rw [hdraws]

/-- The engine's step on an operation in progress completes it with the result of the latched word. -/
theorem step_completes {s : State} {rest : List Event} (hbusy : s.busy = true)
    (hnext : EngineMovesNext s.schedule rest) :
    ∃ u : State, step s = .next (u.complete (s.resultOf s.cmdLatch)) := by
  obtain ⟨d, hd⟩ := engineTurn_of_busy (s := { s with schedule := rest }) hbusy
  have hresult : { s with schedule := rest }.resultOf s.cmdLatch = s.resultOf s.cmdLatch :=
    State.resultOf_eq_of_fields_eq _ rfl rfl rfl rfl rfl
  exact ⟨_, by rw [step_of_engineMovesNext hnext, hd, hresult]⟩

/-- A command run from an idle state to its completion, under any accesses of the host in between,
completes with the result that the state before the command determines. -/
theorem run_command_completes {s : State} {w : Word} {between : List Access} {events rest : List Event}
    (hidle : s.busy = false)
    (h : s.schedule = .host (.regWrite 0 w) :: (between.map Event.host ++ events))
    (hnext : EngineMovesNext events rest) :
    ∃ u : State, Host.Core.run Sys2Proof.core (between.length + 2) s =
      .next (u.complete (s.resultOf w)) := by
  obtain ⟨rs, hrun⟩ := run_accesses_of_busy between 1
    (s := { s with schedule := between.map Event.host ++ events }.accept w) (State.accept_busy _ w) rfl
  obtain ⟨u, hu⟩ := step_completes
    (s := { s.accept w with schedule := events, replies := rs }) (State.accept_busy s w) hnext
  have hresult : { s.accept w with schedule := events, replies := rs }.resultOf w = s.resultOf w :=
    State.resultOf_eq_of_fields_eq w rfl rfl rfl rfl rfl
  refine ⟨u, ?_⟩
  calc Host.Core.run Sys2Proof.core (between.length + 2) s
    _ = Host.Core.run Sys2Proof.core (between.length + 1)
          ({ s with schedule := between.map Event.host ++ events }.accept w) :=
        run_next _ (step_command hidle h)
    _ = Host.Core.run Sys2Proof.core 1 { s.accept w with schedule := events, replies := rs } := hrun
    _ = .next (u.complete ({ s.accept w with schedule := events, replies := rs }.resultOf w)) :=
        run_next 0 hu
    _ = .next (u.complete (s.resultOf w)) := by rw [hresult]

/-- What a completion leaves visible is determined by the result (rule R79). -/
theorem State.complete_visible_eq (u u' : State) (r : Result) :
    (u.complete r).status = (u'.complete r).status ∧ (u.complete r).outLen = (u'.complete r).outLen ∧
      (u.complete r).outBuf = (u'.complete r).outBuf := by
  cases r <;> exact ⟨rfl, rfl, rfl⟩

/-- Settles O16: each run completes with the result its first state determines, and that result reads
only the inputs of rule R38. -/
theorem outcomeDependsOnlyOnItsInputs : Obligations.OutcomeDependsOnlyOnItsInputs := by
  intro w between between' events events' rest rest' s s' t t' hidle hidle' hsched hsched' hnext hnext'
    hinLen hin hkeyLen hkey hcbc hctr hrun hrun'
  have hinputs : SameInputs s s' := ⟨hinLen, hin, hkeyLen, hkey⟩
  obtain ⟨u, hu⟩ := run_command_completes hidle hsched hnext
  obtain ⟨u', hu'⟩ := run_command_completes hidle' hsched' hnext'
  obtain rfl := Host.Outcome.next.inj (hu.symm.trans hrun)
  obtain rfl := Host.Outcome.next.inj (hu'.symm.trans hrun')
  rw [hinputs.resultOf_eq w hcbc hctr]
  exact State.complete_visible_eq u u' _

/-! ### After reset -/

theorem decode_encode (i : Instr) : decode (encode i) = .ok i := by cases i <;> rfl

/-- An empty operand passes the capacity check of every operation: no result of one is above 32
bytes. -/
theorem exceedsCap_empty (i : Instr) : exceedsCap Config.cap i 0 = false := by
  have hneed : needOut i 0 ≤ 32 := by cases i <;> decide
  have hcap : 1024 ≤ Config.cap := by unfold Config.cap; omega
  exact Bool.eq_false_iff.2 fun h => by
    rw [exceedsCap_iff] at h
    omega

theorem modeOperand_of_keyLen_ne {s : State} {i : Instr}
    (hfit : exceedsCap Config.cap i s.operandLen = false) (hkey : s.keyLen ≠ 16) :
    s.modeOperand i = .error .invalidKeyLength := by
  rw [State.modeOperand, hfit, if_neg Bool.false_ne_true, if_pos hkey]

/-- A mode operation that passes the capacity check but finds no key of 16 bytes completes with
`InvalidKeyLength` and takes no draw (rules R81, R171). -/
theorem exec_mode_of_keyLen_ne {s : State} {i : Instr} (hmode : i.isMode = true)
    (hfit : exceedsCap Config.cap i s.operandLen = false) (hkey : s.keyLen ≠ 16) :
    exec i s = .next (s.completeErr .invalidKeyLength) := by
  have hop := modeOperand_of_keyLen_ne hfit hkey
  cases i
  case pad | unpad | xor | inc => cases hmode
  case ecbEnc => rw [exec_ecbEnc, State.runMode, hop]
  case ecbDec => rw [exec_ecbDec, State.runMode, hop]
  case cbcEnc => rw [exec_cbcEnc, State.runModeDraw, hop]
  case cbcDec => rw [exec_cbcDec, State.runMode, hop]
  case ctrEnc => rw [exec_ctrEnc, State.runModeDraw, hop]
  case ctrDec => rw [exec_ctrDec, State.runMode, hop]

/-- The completion step when the latched word is one of an operation (rule R79). -/
theorem engineTurn_of_decode {s : State} {i : Instr} (hbusy : s.busy = true)
    (hd : decode s.cmdLatch = .ok i) : engineTurn s = exec i s := by
  simp only [engineTurn, State.fetchWord, hbusy, hd, if_true]

theorem regRead_reset {r : Nat} (hr : r ≠ 5) : State.reset.regRead r = 0 := by
  unfold State.regRead
  split
  case h_6 => exact absurd rfl hr
  all_goals rfl

theorem bufRead_reset (sp : Space) (i : Nat) : State.reset.bufRead sp i = 0 := by
  cases sp <;> exact ite_self 0

/-- A mode operation commanded in an idle state with an empty operand and no key is accepted, and
completes with `InvalidKeyLength` at the engine's next turn. -/
theorem run_mode_without_key {s : State} {i : Instr} {events rest : List Event} (hmode : i.isMode = true)
    (hidle : s.busy = false) (hinLen : s.inLen = 0) (hkeyLen : s.keyLen = 0)
    (h : s.schedule = .host (.regWrite 0 (encode i)) :: events) (hnext : EngineMovesNext events rest) :
    Host.Core.run Sys2Proof.core 2 s =
      .next (({ s with schedule := rest }.accept (encode i)).completeErr .invalidKeyLength) := by
  have hfit : exceedsCap Config.cap i s.operandLen = false := by
    rw [State.operandLen, hinLen]
    exact exceedsCap_empty i
  have hkey : s.keyLen ≠ 16 := by rw [hkeyLen]; decide
  have hexec := exec_mode_of_keyLen_ne (s := { s with schedule := rest }.accept (encode i)) hmode hfit hkey
  have hturn := engineTurn_of_decode (State.accept_busy { s with schedule := rest } (encode i))
    (decode_encode i)
  have hstep := step_of_engineMovesNext (s := { s with schedule := events }.accept (encode i)) hnext
  rw [run_next 1 (step_command hidle h), run_next 0 (hstep.trans (hturn.trans hexec))]
  rfl

/-- The six mode operations (rule R71). -/
theorem isMode_of_mem {i : Instr}
    (h : i ∈ [Instr.ecbEnc, .ecbDec, .cbcEnc, .cbcDec, .ctrEnc, .ctrDec]) : i.isMode = true := by
  revert h
  cases i <;> decide

/-- Settles O28: the reads are those of the zero state; a mode operation commanded there finds
`KEY_LEN = 0`. -/
theorem resetLeavesZeroAndNoKey : Obligations.ResetLeavesZeroAndNoKey := by
  refine ⟨fun r hr => regRead_reset hr, rfl, bufRead_reset, rfl, rfl, ?_⟩
  intro i hi s hs events rest hsched hnext
  have hmode : i.isMode = true := isMode_of_mem hi
  have hstatus : s.status = 0 := congrArg State.status hs
  have hidle : s.busy = false := by rw [State.busy, hstatus]; rfl
  have houtLen : s.outLen = 0 := congrArg State.outLen hs
  have houtBuf : s.outBuf = [] := congrArg State.outBuf hs
  rw [run_mode_without_key hmode hidle (congrArg State.inLen hs)
    (congrArg State.keyLen hs) hsched hnext]
  simp only [State.completeErr, State.accept, houtLen, houtBuf]
  rfl

end Sys2Proof.Machine

/-! The host accesses (rules R53, R55): what a write of a register or of a buffer byte does, and what it
leaves as it was. -/

namespace Sys2Proof.Machine

/-! ### Register writes -/

/-- `RegWrite(r, v)` as the chain of conditions of rule R53. -/
theorem State.regWrite_eq (s : State) (r : Nat) (v : Word) :
    s.regWrite r v =
      if r = 0 then s.command v
      else if s.busy then s
      else if r = 2 then { s with inLen := v }
      else if r = 4 then { s with keyLen := v }
      else s := by
  unfold State.regWrite
  split
  case h_1 | h_2 | h_3 => rfl
  case h_4 h0 h2 h4 => rw [if_neg h0, if_neg h2, if_neg h4, ite_self]

/-- Settles O5: the step is the register write of rule R53, with the two branches of rule R77 for a
write of `CMD`. -/
theorem regWriteEffect : Obligations.RegWriteEffect := by
  intro s r v rest h
  rw [step_host h, State.access, State.regWrite_eq, State.command, State.accept]
  rfl

/-! ### Buffer writes -/

/-- The last valid index of `IN` is `CAP - 1` (rule R50), since `CAP` is not 0 (rule R8). -/
theorem le_cap_sub_one_iff (i : Nat) : i ≤ Config.cap - 1 ↔ i < Config.cap := by
  have hcap : 0 < Config.cap := by unfold Config.cap; omega
  omega

/-- `BufWrite` has an effect (rule R55): the engine is idle, the buffer is `KEY` or `IN`, and the index
is valid. -/
def State.Stores (s : State) (sp : Space) (i : Nat) : Prop :=
  s.busy = false ∧ sp ≠ .out ∧ i < sp.size

/-- A buffer write that has no effect (rules R55, R58). -/
theorem State.bufWrite_of_not_stores {s : State} {sp : Space} {i : Nat} (h : ¬ s.Stores sp i) (b : Byte) :
    s.bufWrite sp i b = s := by
  rcases s.bufWrite_cases sp i b with e | ⟨hidle, rfl, hi, _⟩ | ⟨hidle, rfl, hi, _⟩
  · exact e
  · exact absurd ⟨hidle, nofun, Nat.lt_succ_of_le hi⟩ h
  · exact absurd ⟨hidle, nofun, (le_cap_sub_one_iff i).1 hi⟩ h

/-- The buffers after a buffer write that has an effect: one byte of the one buffer is written. -/
theorem State.buf_bufWrite_of_stores {s : State} {sp : Space} {i : Nat} (h : s.Stores sp i) (b : Byte)
    (sp' : Space) :
    (s.bufWrite sp i b).buf sp' = if sp' = sp then (s.buf sp').write i b else s.buf sp' := by
  obtain ⟨hidle, hsp, hi⟩ := h
  unfold State.bufWrite
  rw [hidle, if_neg Bool.false_ne_true]
  cases sp with
  | key =>
    rw [if_pos (Nat.le_of_lt_succ hi)]
    cases sp' <;> rfl
  | inp =>
    rw [if_pos ((le_cap_sub_one_iff i).2 hi)]
    cases sp' <;> rfl
  | out => exact absurd rfl hsp

theorem Inv.buf_wf {s : State} (h : Inv s) (sp : Space) : (s.buf sp).wf = true := by
  cases sp with
  | key => exact h.keyBuf_wf
  | inp => exact h.inBuf_wf
  | out => exact h.outBuf_wf

/-- What the host reads of a buffer after a buffer write that has an effect. -/
theorem State.bufRead_bufWrite_of_stores {s : State} {sp : Space} {i : Nat} (hinv : Inv s)
    (h : s.Stores sp i) (b : Byte) (sp' : Space) (j : Nat) :
    (s.bufWrite sp i b).bufRead sp' j = if sp' = sp ∧ j = i then b else s.bufRead sp' j := by
  have ⟨_, _, hi⟩ := h
  unfold State.bufRead
  rw [State.buf_bufWrite_of_stores h]
  by_cases hsp : sp' = sp
  · subst hsp
    rw [if_pos rfl, Memory.read_write _ _ _ (hinv.buf_wf sp')]
    by_cases hj : j = i
    · subst hj
      simp only [hi, if_true, and_self]
    · simp only [hj, if_false, and_false]
  · simp only [hsp, if_false, false_and]

/-- A buffer write changes the contents of `KEY` and `IN` at most. -/
theorem State.bufWrite_eq_with_buffers (s : State) (sp : Space) (i : Nat) (b : Byte) :
    ∃ key inp, s.bufWrite sp i b = { s with keyBuf := key, inBuf := inp } := by
  rcases s.bufWrite_cases sp i b with e | ⟨_, _, _, e⟩ | ⟨_, _, _, e⟩
  · exact ⟨s.keyBuf, s.inBuf, e⟩
  · exact ⟨_, s.inBuf, e⟩
  · exact ⟨s.keyBuf, _, e⟩

/-- What the host reads of a buffer after a buffer write (rule R55). -/
theorem State.bufRead_bufWrite {s : State} (hinv : Inv s) (sp : Space) (i : Nat) (b : Byte)
    (sp' : Space) (j : Nat) :
    (s.bufWrite sp i b).bufRead sp' j =
      if s.busy = false ∧ sp ≠ .out ∧ i < sp.size ∧ sp' = sp ∧ j = i then b
      else s.bufRead sp' j := by
  by_cases h : s.Stores sp i
  · have ⟨hidle, hsp, hi⟩ := h
    rw [State.bufRead_bufWrite_of_stores hinv h]
    simp only [hidle, hsp, hi, ne_eq, not_false_eq_true, true_and]
  · rw [State.bufWrite_of_not_stores h, if_neg]
    rintro ⟨hidle, hsp, hi, _⟩
    exact h ⟨hidle, hsp, hi⟩

theorem Inv.with_schedule {s : State} (h : Inv s) (rest : List Event) : Inv { s with schedule := rest } :=
  { h with }

/-- Settles O7: the step is the buffer write of rule R55, whose buffers read as `bufRead_bufWrite` says
and which changes no other field. -/
theorem bufWriteEffect : Obligations.BufWriteEffect := by
  intro s sp i b rest hinv h
  obtain ⟨key, inp, hframe⟩ := { s with schedule := rest }.bufWrite_eq_with_buffers sp i b
  refine ⟨{ s with schedule := rest }.bufWrite sp i b, step_host h,
    State.bufRead_bufWrite (hinv.with_schedule rest) sp i b, ?_⟩
  rw [hframe]
  exact ⟨rfl, rfl, rfl, rfl, rfl, rfl, rfl, rfl⟩

end Sys2Proof.Machine

/-! Command words and the engine's step (rules R70 to R80): acceptance, the reserved words, the engine's
completion step against `Exec` of rule R78, and the capacity check. -/

namespace Sys2Proof.Machine

/-! ### Acceptance (rule R77) -/

/-- A `CMD` write while busy is dropped (rules R58, R77). -/
theorem step_command_of_busy {s : State} {w : Word} {rest : List Event} (hbusy : s.busy = true)
    (h : s.schedule = .host (.regWrite 0 w) :: rest) : step s = .next { s with schedule := rest } :=
  (step_host h).trans (congrArg _ (State.regWrite_of_busy (s := { s with schedule := rest }) hbusy 0 w))

/-- Settles O9: the step is the acceptance of the word, or drops it. -/
theorem commandAcceptance : Obligations.CommandAcceptance := by
  intro s w rest h
  refine ⟨fun hbusy => step_command_of_busy hbusy h, fun hidle => ?_⟩
  exact ⟨_, step_command hidle h, rfl, rfl, rfl, fun _ => ite_self 0, rfl, rfl, rfl, rfl, rfl, rfl, rfl⟩

/-! ### Reserved words (rule R73) -/

theorem encode_eq_matchWord (i : Instr) : encode i = matchWord i := by cases i <;> rfl

/-- The mask of every row covers the whole word (rule R72). -/
theorem and_maskWord (w : Word) : w &&& maskWord = w := BitVec.and_allOnes

/-- A word decodes to an operation exactly when it matches the operation's row (rule R72). -/
theorem decode_eq_ok_iff (w : Word) (i : Instr) : decode w = .ok i ↔ w &&& maskWord = matchWord i := by
  rw [and_maskWord, ← encode_eq_matchWord]
  exact ⟨eq_encode_of_decode, fun h => h ▸ decode_encode i⟩

/-- The decoder refuses exactly the words that match no row. -/
theorem matches_no_row_iff_decode_error (w : Word) :
    (∀ i, w &&& maskWord ≠ matchWord i) ↔ ∃ e, decode w = .error e := by
  simp only [ne_eq, ← decode_eq_ok_iff]
  cases hd : decode w with
  | ok i => exact ⟨fun h => absurd rfl (h i), nofun⟩
  | error e => exact ⟨fun _ => ⟨e, rfl⟩, fun _ _ => nofun⟩

theorem opField_toNat (w : Word) : (opField w).toNat = w.toNat % 16 := by
  simp [opField]

theorem zeroField_eq_zero_iff (w : Word) : zeroField w = 0 ↔ w.toNat / 16 = 0 := by
  have hw := w.isLt
  rw [zeroField, BitVec.toNat_eq, BitVec.extractLsb'_toNat, Nat.shiftRight_eq_div_pow]
  show w.toNat / 16 % 2 ^ 28 = 0 ↔ _
  omega

/-- The reserved values of field `OP` (rule R73). -/
theorem decodeOp_eq_reservedOp_iff (op : BitVec 4) :
    decodeOp op = .error .reservedOp ↔ op.toNat ∈ [0x0, 0x1, 0x6, 0x7, 0xE, 0xF] := by
  revert op
  decide

theorem decodeOp_ne_zeroFieldNotZero (op : BitVec 4) : decodeOp op ≠ .error .zeroFieldNotZero := by
  revert op
  decide

/-- The decoder refuses exactly the words whose `ZERO` is not 0 or whose `OP` is reserved (rule R73). -/
theorem decode_error_iff (w : Word) :
    (∃ e, decode w = .error e) ↔ w.toNat / 16 ≠ 0 ∨ w.toNat % 16 ∈ [0x0, 0x1, 0x6, 0x7, 0xE, 0xF] := by
  rw [← opField_toNat, ← decodeOp_eq_reservedOp_iff, ne_eq, ← zeroField_eq_zero_iff]
  by_cases hz : zeroField w = 0
  · have hdecode : decode w = decodeOp (opField w) := if_neg (not_not.2 hz)
    rw [hdecode]
    refine ⟨?_, fun h => ⟨_, h.resolve_left (not_not.2 hz)⟩⟩
    rintro ⟨_ | _, he⟩
    · exact absurd he (decodeOp_ne_zeroFieldNotZero _)
    · exact .inr he
  · exact ⟨fun _ => .inl hz, fun _ => ⟨_, if_pos hz⟩⟩

/-- The completion of a reserved word (rules R73, R178). -/
theorem engineTurn_of_decode_error {s : State} {e : DecodeError} (hbusy : s.busy = true)
    (hd : decode s.cmdLatch = .error e) : engineTurn s = .next (s.completeErr .illegalOperation) := by
  simp only [engineTurn, State.fetchWord, hbusy, hd, if_true, execReserved]

/-- Settles O3: the decoder refuses the words of rule R73, acceptance does not look at the word, and the
completion of a refused word looks at nothing else. -/
theorem reservedWordCompletesIllegal : Obligations.ReservedWordCompletesIllegal := by
  refine ⟨fun w => (matches_no_row_iff_decode_error w).trans (decode_error_iff w),
    matches_no_row_iff_decode_error, fun s w rest _ hidle h => step_command hidle h, ?_⟩
  intro s rest hrow hbusy hnext
  obtain ⟨e, hd⟩ := (matches_no_row_iff_decode_error _).1 hrow
  rw [step_of_engineMovesNext hnext]
  exact engineTurn_of_decode_error hbusy hd

/-! ### The functions of the operations: what each can answer -/

/-- A result of at most `bound` bytes, or an error that the operation's own function reports: the capacity
error belongs to the common checks (rules R78, R177). -/
def ResultWithin (bound : Nat) : Result → Prop
  | .ok out => out.length ≤ bound
  | .error K => K ≠ .capacityExceeded

theorem unpad_length_le {d out : Bytes} (h : unpad d = .ok out) : out.length ≤ d.length := by
  unfold unpad at h
  repeat' split at h
  all_goals cases h
  exact List.length_take_le' _ _

theorem unpad_within {d : Bytes} {bound : Nat} (h : d.length ≤ bound) : ResultWithin bound (unpad d) := by
  rcases unpad_answers d with ⟨out, e⟩ | e
  · rw [e]
    exact (unpad_length_le e).trans h
  · rw [e]
    exact nofun

/-- The blocks hold the whole of the sequence (rule R110). -/
theorem group_length {data : Bytes} {blocks : List Block} (h : group data = .ok blocks) :
    16 * blocks.length = data.length := by
  by_cases ha : data.length % 16 = 0
  · rw [group_of_aligned ha] at h
    cases h
    rw [List.length_map, List.length_range]
    omega
  · rw [group_of_unaligned ha] at h
    cases h

theorem padOp_within (x : Bytes) : ResultWithin (paddedLen x.length) (padOp x) := (pad_length x).le

theorem xorOp_within (x : Bytes) : ResultWithin 16 (xorOp x) := by
  unfold xorOp
  split
  · exact nofun
  · exact Vector.length_toList.le

theorem incOp_within (x : Bytes) : ResultWithin 8 (incOp x) := by
  unfold incOp
  split
  · exact nofun
  · exact Vector.length_toList.le

section modes
variable (c : Cipher) (x : Bytes) (key : Key)

theorem ecbEnc_within : ResultWithin (paddedLen x.length) (ecbEnc c x key) := by
  obtain ⟨P, hP, e⟩ := ecbEnc_ok c x key
  have hlen : 16 * P.length = paddedLen x.length := (group_length hP).trans (pad_length x)
  rw [e, ResultWithin, ungroup_length, List.length_map, hlen]

theorem cbcEnc_within (iv : Block) : ResultWithin (paddedLen x.length + 16) (cbcEnc c x key iv) := by
  obtain ⟨P, hP, e⟩ := cbcEnc_ok c x key iv
  have hlen : 16 * P.length = paddedLen x.length := (group_length hP).trans (pad_length x)
  rw [e, ResultWithin, List.length_append, ungroup_length, cbcEncLoop_length, hlen, Vector.length_toList,
    Nat.add_comm]

theorem ctrEnc_within (nonce : Half) : ResultWithin (paddedLen x.length + 16) (ctrEnc c x key nonce) := by
  obtain ⟨P, hP, e⟩ := ctrEnc_ok c x key nonce
  have hlen : 16 * P.length = paddedLen x.length := (group_length hP).trans (pad_length x)
  rw [e, ResultWithin, List.length_append, List.length_append, ungroup_length, ctrLoop_length, hlen,
    Vector.length_toList, zeros_length, Nat.add_comm]

theorem ecbDec_within : ResultWithin x.length (ecbDec c x key) := by
  by_cases h : x.length = 0 ∨ x.length % 16 ≠ 0
  · rw [ecbDec, if_pos h]
    exact nofun
  · obtain ⟨h0, ha⟩ := not_or.1 h
    obtain ⟨C, hC, e⟩ := ecbDec_of_aligned c x key h0 (not_not.1 ha)
    rw [e]
    exact unpad_within (by rw [ungroup_length, List.length_map, group_length hC])

theorem cbcDec_within : ResultWithin x.length (cbcDec c x key) := by
  by_cases hs : x.length < 32
  · rw [cbcDec, if_pos hs]
    exact nofun
  by_cases ha : x.length % 16 = 0
  · obtain ⟨blocks, hb, e⟩ := cbcDec_of_aligned c x key (Nat.le_of_not_lt hs) ha
    have hlen := group_length hb
    rw [e]
    exact unpad_within (by rw [ungroup_length, cbcDecLoop_length, List.length_drop]; omega)
  · rw [cbcDec, if_neg hs, if_pos ha]
    exact nofun

theorem ctrDec_within : ResultWithin x.length (ctrDec c x key) := by
  by_cases hs : x.length < 32
  · rw [ctrDec, if_pos hs]
    exact nofun
  by_cases ha : x.length % 16 = 0
  · obtain ⟨blocks, hb, e⟩ := ctrDec_of_aligned c x key (Nat.le_of_not_lt hs) ha
    have hlen := group_length hb
    rw [e]
    exact unpad_within (by rw [ungroup_length, ctrLoop_length, List.length_drop]; omega)
  · rw [ctrDec, if_neg hs, if_pos ha]
    exact nofun

end modes

/-! ### `Exec` of rule R78: the common checks, then the operation's function -/

/-- The function of operation `i` on the operand, the key and the draw (the last lines of rule R78). -/
def State.applyOp (s : State) : Instr → Result
  | .pad => padOp s.operand
  | .unpad => unpadOp s.operand
  | .xor => xorOp s.operand
  | .inc => incOp s.operand
  | .ecbEnc => ecbEnc Config.cipher s.operand s.key
  | .ecbDec => ecbDec Config.cipher s.operand s.key
  | .cbcEnc => cbcEnc Config.cipher s.operand s.key (Config.rand s.draws 16)
  | .cbcDec => cbcDec Config.cipher s.operand s.key
  | .ctrEnc => ctrEnc Config.cipher s.operand s.key (Config.rand s.draws 8)
  | .ctrDec => ctrDec Config.cipher s.operand s.key

/-- An operation's function answers no more bytes than the `NeedOut` of rule R80. -/
theorem State.applyOp_within (s : State) (i : Instr) :
    ResultWithin (needOut i s.operandLen) (s.applyOp i) := by
  rw [← operand_length]
  cases i
  case pad => exact padOp_within _
  case unpad => exact unpad_within (Nat.le_refl _)
  case xor => exact xorOp_within _
  case inc => exact incOp_within _
  case ecbEnc => exact ecbEnc_within _ _ _
  case ecbDec => exact ecbDec_within _ _ _
  case cbcEnc => exact cbcEnc_within _ _ _ _
  case cbcDec => exact cbcDec_within _ _ _
  case ctrEnc => exact ctrEnc_within _ _ _ _
  case ctrDec => exact ctrDec_within _ _ _

/-- The common checks in front of the result `r` of operation `i`: the capacity, then the key length of a
mode operation (rules R78, R179). -/
def State.checked (s : State) (i : Instr) (r : Result) : Result :=
  if Config.cap < s.operandLen ∨ Config.cap < needOut i s.operandLen then .error .capacityExceeded
  else if i.isMode = true ∧ s.keyLen.toNat ≠ 16 then .error .invalidKeyLength
  else r

theorem keyLen_toNat_ne_iff (k : Word) : k.toNat ≠ 16 ↔ k ≠ 16 := by
  rw [ne_eq, ne_eq, BitVec.toNat_eq]
  rfl

section checked
variable {s : State} {i : Instr} {r : Result}

theorem State.checked_of_exceedsCap (h : exceedsCap Config.cap i s.operandLen = true) :
    s.checked i r = .error .capacityExceeded :=
  if_pos ((exceedsCap_iff _ _ _).1 h)

/-- The checks of an operation whose operand and result fit: the key length alone is left. -/
theorem State.checked_of_fits (h : exceedsCap Config.cap i s.operandLen = false) :
    s.checked i r =
      if i.isMode = true ∧ s.keyLen.toNat ≠ 16 then .error .invalidKeyLength else r :=
  if_neg (mt (exceedsCap_iff _ _ _).2 (Bool.eq_false_iff.1 h))

/-- A utility operation takes no key. -/
theorem State.checked_of_utility (hi : i.isMode = false) :
    s.checked i r =
      if Config.cap < s.operandLen ∨ Config.cap < needOut i s.operandLen then .error .capacityExceeded
      else r := by
  simp only [State.checked, hi, Bool.false_eq_true, false_and, if_false]

theorem State.checked_of_mode (hi : i.isMode = true) :
    s.checked i r =
      if Config.cap < s.operandLen ∨ Config.cap < needOut i s.operandLen then .error .capacityExceeded
      else if s.keyLen.toNat ≠ 16 then .error .invalidKeyLength
      else r := by
  simp only [State.checked, hi, true_and]

/-- The model's checks of a utility operation. -/
theorem State.utilityOperand_bind (hi : i.isMode = false) (f : Bytes → Result) :
    s.utilityOperand i >>= f = s.checked i (f s.operand) := by
  rcases utilityOperand_cases s i with ⟨hc, e⟩ | ⟨hc, e⟩
  · rw [e, State.checked_of_exceedsCap hc]
    rfl
  · rw [e, State.checked_of_fits hc, hi, if_neg (fun h => Bool.false_ne_true h.1)]
    rfl

/-- The model's checks of a mode operation. -/
theorem State.modeOperand_bind (hi : i.isMode = true) (f : Bytes × Key → Result) :
    s.modeOperand i >>= f = s.checked i (f (s.operand, s.key)) := by
  rcases modeOperand_cases s i with ⟨hc, e⟩ | ⟨hc, hk, e⟩ | ⟨hc, hk, e⟩
  · rw [e, State.checked_of_exceedsCap hc]
    rfl
  · rw [e, State.checked_of_fits hc, if_pos ⟨hi, (keyLen_toNat_ne_iff _).2 hk⟩]
    rfl
  · rw [e, State.checked_of_fits hc, if_neg (fun h => (keyLen_toNat_ne_iff _).1 h.2 hk)]
    rfl

/-- `CapacityExceeded` is the answer of the capacity check alone. -/
theorem State.checked_eq_capacityExceeded_iff {bound : Nat} (h : ResultWithin bound r) :
    s.checked i r = .error .capacityExceeded ↔ exceedsCap Config.cap i s.operandLen = true := by
  refine ⟨fun he => ?_, State.checked_of_exceedsCap⟩
  by_contra hfit
  rw [State.checked_of_fits (Bool.eq_false_iff.2 hfit)] at he
  split at he
  · cases he
  · subst he
    exact h rfl

/-- A result that passes the capacity check fits `OUT`. -/
theorem State.length_le_cap_of_checked {out : Bytes} (h : ResultWithin (needOut i s.operandLen) r)
    (he : s.checked i r = .ok out) : out.length ≤ Config.cap := by
  cases hc : exceedsCap Config.cap i s.operandLen with
  | true =>
    rw [State.checked_of_exceedsCap hc] at he
    cases he
  | false =>
    have hneed : needOut i s.operandLen ≤ Config.cap :=
      Nat.le_of_not_lt fun hlt => by simp [(exceedsCap_iff _ i _).2 (.inr hlt)] at hc
    rw [State.checked_of_fits hc] at he
    split at he
    · cases he
    · subst he
      exact Nat.le_trans h hneed

end checked

theorem State.execResult_eq_checked (s : State) (i : Instr) :
    s.execResult i = s.checked i (s.applyOp i) := by
  cases i
  case pad | unpad | xor | inc => exact State.utilityOperand_bind rfl _
  all_goals exact State.modeOperand_bind rfl _

/-- Rule R78's lines for the word of an operation are its checks and its function. -/
theorem State.specResult_eq_checked {s : State} {i : Instr} (h : s.cmdLatch = encode i) :
    s.specResult = s.checked i (s.applyOp i) := by
  unfold State.specResult
  rw [h]
  cases i
  case pad | unpad | xor | inc =>
    rw [State.checked_of_utility rfl]
    rfl
  all_goals
    rw [State.checked_of_mode rfl]
    rfl

/-- The first two lines of rule R78. -/
theorem State.specResult_of_decode_error {s : State} (h : ∃ e, decode s.cmdLatch = .error e) :
    s.specResult = .error .illegalOperation := by
  have hop : ∀ op ∈ [0x0, 0x1, 0x6, 0x7, 0xE, 0xF],
      op ∉ [0x2, 0x3, 0x4, 0x5, 0x8, 0x9, 0xA, 0xB, 0xC, 0xD] := by decide
  unfold State.specResult specExec
  by_cases hz : s.cmdLatch.toNat / 16 = 0
  · have hreserved := ((decode_error_iff _).1 h).resolve_left (not_not.2 hz)
    rw [if_neg (not_not.2 hz), if_pos (hop _ hreserved)]
  · rw [if_pos hz]

/-- The engine computes the function of rule R78. -/
theorem State.specResult_eq_resultOf (s : State) : s.specResult = s.resultOf s.cmdLatch := by
  cases hd : decode s.cmdLatch with
  | ok i =>
    rw [s.resultOf_ok hd, s.execResult_eq_checked, State.specResult_eq_checked (eq_encode_of_decode hd)]
  | error e => rw [s.resultOf_error hd, State.specResult_of_decode_error ⟨e, hd⟩]

/-! ### The completion step (rules R78, R79) -/

theorem State.specResult_length_le_cap {s : State} {out : Bytes} (h : s.specResult = .ok out) :
    out.length ≤ Config.cap := by
  rw [s.specResult_eq_resultOf] at h
  cases hd : decode s.cmdLatch with
  | ok i =>
    rw [s.resultOf_ok hd, s.execResult_eq_checked] at h
    exact State.length_le_cap_of_checked (s.applyOp_within i) h
  | error e =>
    rw [s.resultOf_error hd] at h
    cases h

/-- The requests to the random source that are counted when operation `i` has completed with a result: one
more after an encryption in CBC or CTR, whose checks have passed when its result is `Ok` (rule R81). -/
def State.drawsAfter (s : State) (i : Instr) : Result → Nat
  | .ok _ => if i = .cbcEnc ∨ i = .ctrEnc then s.draws + 1 else s.draws
  | .error _ => s.draws

theorem State.drawsAfter_of_no_draw (s : State) {i : Instr} (hi : ¬ (i = .cbcEnc ∨ i = .ctrEnc)) (r : Result) :
    s.drawsAfter i r = s.draws := by
  cases r with
  | ok out => exact if_neg hi
  | error K => rfl

/-- An operation that takes no draw completes with its result and changes nothing else. -/
theorem exec_of_no_draw (s : State) {i : Instr} (hi : ¬ (i = .cbcEnc ∨ i = .ctrEnc)) :
    exec i s = .next (s.complete (s.execResult i)) := by
  obtain ⟨d, h⟩ := exec_eq_complete i s
  obtain ⟨r, d', h', hd'⟩ := exec_completes i s
  have hcomplete := Host.Outcome.next.inj (h.symm.trans h')
  have hd : d = d' := by simpa only [State.complete_draws] using congrArg State.draws hcomplete
  have hdraws : d = s.draws := hd.trans (hd'.resolve_right fun hdraw => hi hdraw.1)
  rw [h, hdraws]

/-- An operation that takes a draw counts it exactly when its checks pass; its function never answers an
error. -/
theorem runModeDraw_of_ok (s : State) {i : Instr} {n : Nat} {f : Bytes → Key → ByteVec n → Result} {r : Result}
    (hi : i = .cbcEnc ∨ i = .ctrEnc) (hf : ∀ x key v, ∃ out, f x key v = .ok out)
    (hr : (s.modeOperand i >>= fun x => f x.1 x.2 (Config.rand s.draws n)) = r) :
    s.runModeDraw i n f = { s with draws := s.drawsAfter i r }.complete r := by
  subst hr
  unfold State.runModeDraw
  rcases s.modeOperand i with K | ⟨data, key⟩
  · rfl
  · obtain ⟨out, hout⟩ := hf data key (Config.rand s.draws n)
    have hdraws : s.drawsAfter i (f data key (Config.rand s.draws n)) = s.draws + 1 := by
      rw [hout]
      exact if_pos hi
    change _ = { s with draws := s.drawsAfter i (f data key (Config.rand s.draws n)) }.complete _
    rw [hdraws]
    rfl

/-- The whole of a completion (rule R79): the result is committed and the draw counted. -/
theorem exec_eq_commit (i : Instr) (s : State) :
    exec i s = .next ({ s with draws := s.drawsAfter i (s.execResult i) }.complete (s.execResult i)) := by
  by_cases hi : i = .cbcEnc ∨ i = .ctrEnc
  · rcases hi with rfl | rfl
    · rw [exec_cbcEnc, runModeDraw_of_ok s (.inl rfl)
        (fun x key iv => (cbcEnc_ok _ x key iv).imp' _ fun _ h => h.2) rfl]
      rfl
    · rw [exec_ctrEnc, runModeDraw_of_ok s (.inr rfl)
        (fun x key nonce => (ctrEnc_ok _ x key nonce).imp' _ fun _ h => h.2) rfl]
      rfl
  · rw [s.drawsAfter_of_no_draw hi]
    exact exec_of_no_draw s hi

/-- The two words whose completion asks the random source. -/
theorem encode_draws_iff (i : Instr) :
    encode i = 0x0000000A ∨ encode i = 0x0000000C ↔ i = .cbcEnc ∨ i = .ctrEnc := by
  cases i <;> decide

/-- Settles O11: the machine's result is the one of rule R78, and the completion commits it. -/
theorem engineStepRefinesExec : Obligations.EngineStepRefinesExec := by
  intro s rest hbusy hnext
  refine ⟨?_, fun out => State.specResult_length_le_cap⟩
  rw [step_of_engineMovesNext hnext, s.specResult_eq_resultOf]
  cases hd : decode s.cmdLatch with
  | error e =>
    rw [engineTurn_of_decode_error (s := { s with schedule := rest }) hbusy hd, s.resultOf_error hd]
    rfl
  | ok i =>
    have hword : s.cmdLatch = encode i := eq_encode_of_decode hd
    have hresult : { s with schedule := rest }.execResult i = s.execResult i := rfl
    rw [engineTurn_of_decode (s := { s with schedule := rest }) hbusy hd, exec_eq_commit, s.resultOf_ok hd,
      hresult]
    cases s.execResult i with
    | error K => rfl
    | ok out => simp only [hword, encode_draws_iff]; rfl

/-! ### The capacity check (rule R80) -/

/-- The padded length is the least multiple of 16 above the length. -/
theorem paddedLen_least (n : Nat) :
    paddedLen n % 16 = 0 ∧ n < paddedLen n ∧ ∀ q, q % 16 = 0 → n < q → paddedLen n ≤ q := by
  unfold paddedLen
  exact ⟨by omega, by omega, fun q hq hlt => by omega⟩

/-- A multiple of 16 is below the padded length of `n` exactly when it is not above `n`. -/
theorem lt_paddedLen_iff {q : Nat} (hq : q % 16 = 0) (n : Nat) : q < paddedLen n ↔ q ≤ n := by
  unfold paddedLen
  omega

/-- What rule R8 says of `CAP` that the thresholds need. -/
theorem cap_aligned_and_large : Config.cap % 16 = 0 ∧ 1024 ≤ Config.cap := by
  unfold Config.cap
  omega

/-- The capacity check fails exactly in the cases that rule R80 lists. -/
theorem exceedsCap_cap_iff (i : Instr) (n : Nat) :
    exceedsCap Config.cap i n = true ↔
      if i = .pad ∨ i = .ecbEnc then Config.cap - 1 < n
      else if i = .cbcEnc ∨ i = .ctrEnc then Config.cap - 17 < n
      else Config.cap < n := by
  obtain ⟨haligned, hlarge⟩ := cap_aligned_and_large
  have hpadded : Config.cap < paddedLen n ↔ Config.cap ≤ n := lt_paddedLen_iff haligned n
  have hpadded16 : Config.cap - 16 < paddedLen n ↔ Config.cap - 16 ≤ n := lt_paddedLen_iff (by omega) n
  rw [exceedsCap_iff]
  cases i
  case pad | ecbEnc =>
    simp only [needOut, reduceCtorEq, or_false, or_true, if_true, hpadded]
    omega
  case cbcEnc | ctrEnc =>
    simp only [needOut, reduceCtorEq, or_false, or_true, if_true, if_false]
    omega
  all_goals
    simp only [needOut, reduceCtorEq, or_false, if_false]
    omega

theorem statusError_eq_0x706_iff (K : ErrorKind) : statusError K = 0x00000706 ↔ K = .capacityExceeded := by
  cases K <;> decide

theorem State.complete_status_eq_0x706_iff (s : State) (r : Result) :
    (s.complete r).status = 0x00000706 ↔ r = .error .capacityExceeded := by
  cases r with
  | ok out =>
    have hdone : statusDone ≠ 0x00000706 := by decide
    exact iff_of_false hdone nofun
  | error K =>
    rw [State.complete_error, State.completeErr_status, statusError_eq_0x706_iff, Except.error.injEq]

/-- Settles O19: `CapacityExceeded` is reported by the capacity check alone, which compares `CAP`, a multiple
of 16, with the padded length. -/
theorem capacityThresholds : Obligations.CapacityThresholds := by
  refine ⟨paddedLen_least, fun n => ⟨rfl, rfl, rfl, rfl, rfl, rfl, rfl, rfl, rfl, rfl⟩, ?_⟩
  intro i s t hexec
  obtain ⟨d, hd⟩ := exec_eq_complete i s
  obtain rfl := Host.Outcome.next.inj (hd.symm.trans hexec)
  rw [State.complete_status_eq_0x706_iff, s.execResult_eq_checked,
    State.checked_eq_capacityExceeded_iff (s.applyOp_within i)]
  exact exceedsCap_cap_iff i s.operandLen

end Sys2Proof.Machine

/-! Padding (rules R100 to R103): what the functions `pad` and `unpad` answer, and the operations PAD and
UNPAD, whose result is theirs once the capacity check has passed. -/

namespace Sys2Proof.Machine

/-! ### The function `pad` (rule R100) -/

theorem pad_eq_append_replicate (x : Bytes) :
    pad x = x ++ List.replicate (16 - x.length % 16) (BitVec.ofNat 8 (16 - x.length % 16)) := rfl

theorem pad_length_eq_paddedLen (x : Bytes) : (pad x).length = paddedLen x.length := pad_length x

/-- Settles O42: the length of `pad` is the padded length, the least multiple of 16 above the length. -/
theorem padAppendsCount : Obligations.PadAppendsCount := by
  intro data
  obtain ⟨haligned, hlt, hleast⟩ := paddedLen_least data.length
  rw [← pad_length_eq_paddedLen] at haligned hlt hleast
  refine ⟨_, rfl, by omega, Nat.sub_le _ _, pad_eq_append_replicate data, pad_length data, by omega,
    haligned, hleast, List.take_left, ?_⟩
  rintro rfl
  rfl

/-! ### The function `unpad` (rule R102) -/

/-- A padding of 1 to 16 bytes that all hold its length is removed. -/
theorem unpad_append_replicate (y : Bytes) {k : Nat} (hpos : 1 ≤ k) (hle : k ≤ 16) :
    unpad (y ++ List.replicate k (BitVec.ofNat 8 k)) = .ok y := by
  have hlast : (y ++ List.replicate k (BitVec.ofNat 8 k)).getLast? = some (BitVec.ofNat 8 k) := by
    rw [List.getLast?_append, List.getLast?_replicate, if_neg (by omega)]
    rfl
  have hcount : (BitVec.ofNat 8 k).toNat = k := by
    rw [BitVec.toNat_ofNat]
    omega
  have hlength : (y ++ List.replicate k (BitVec.ofNat 8 k)).length - k = y.length := by simp
  unfold unpad
  simp only [hlast, hcount, hlength]
  rw [if_neg (by omega), if_neg (by simp), if_pos (by simp), List.take_left]

/-- What `unpad` accepts ends in the padding that it removes: its last byte `k` counts it, and the test of all
the last `k` bytes makes them equal. -/
theorem eq_append_replicate_of_unpad {d y : Bytes} (h : unpad d = .ok y) :
    ∃ k, 1 ≤ k ∧ k ≤ 16 ∧ d = y ++ List.replicate k (BitVec.ofNat 8 k) := by
  unfold unpad at h
  split at h
  · cases h
  next last _ =>
    split_ifs at h with hrange hlength hall
    cases h
    have htail : d.drop (d.length - last.toNat) =
        List.replicate last.toNat (BitVec.ofNat 8 last.toNat) := by
      rw [BitVec.ofNat_toNat, BitVec.setWidth_eq, List.eq_replicate_iff, List.length_drop]
      exact ⟨by omega, fun b hb => eq_of_beq (List.all_eq_true.1 hall b hb)⟩
    exact ⟨last.toNat, by omega, by omega, by rw [← htail, List.take_append_drop]⟩

theorem unpad_eq_ok_iff (d y : Bytes) :
    unpad d = .ok y ↔ ∃ k, 1 ≤ k ∧ k ≤ 16 ∧ d = y ++ List.replicate k (BitVec.ofNat 8 k) := by
  refine ⟨eq_append_replicate_of_unpad, ?_⟩
  rintro ⟨k, hpos, hle, rfl⟩
  exact unpad_append_replicate y hpos hle

/-- A sequence that ends in no consistent padding is refused. -/
theorem unpad_eq_invalidPadding {d : Bytes}
    (h : ∀ y k, 1 ≤ k → k ≤ 16 → d ≠ y ++ List.replicate k (BitVec.ofNat 8 k)) :
    unpad d = .error .invalidPadding := by
  refine (unpad_answers d).resolve_left ?_
  rintro ⟨y, hy⟩
  obtain ⟨k, hpos, hle, hd⟩ := eq_append_replicate_of_unpad hy
  exact h y k hpos hle hd

/-- Settles O43. -/
theorem unpadAcceptsExactlyConsistentPadding : Obligations.UnpadAcceptsExactlyConsistentPadding :=
  fun data => ⟨unpad_eq_ok_iff data, unpad_eq_invalidPadding⟩

/-! ### Execution on either side of the capacity check (rules R78, R80) -/

/-- An operation that the capacity check refuses completes with `CapacityExceeded` and takes no draw. -/
theorem exec_of_exceedsCap {s : State} {i : Instr} (h : exceedsCap Config.cap i s.operandLen = true) :
    exec i s = .next (s.completeErr .capacityExceeded) := by
  rw [exec_eq_commit, s.execResult_eq_checked, State.checked_of_exceedsCap h]
  rfl

/-- A utility operation that passes the capacity check completes with its function's answer. -/
theorem exec_utility_of_fits {s : State} {i : Instr} (hi : i.isMode = false)
    (h : exceedsCap Config.cap i s.operandLen = false) :
    exec i s = .next (s.complete (s.applyOp i)) := by
  have hdraw : ¬ (i = .cbcEnc ∨ i = .ctrEnc) := by
    rintro (rfl | rfl) <;> cases hi
  rw [exec_of_no_draw s hdraw, s.execResult_eq_checked, State.checked_of_fits h, hi,
    if_neg fun hmode => Bool.false_ne_true hmode.1]

/-! ### PAD and UNPAD (rules R101, R103) -/

theorem exceedsCap_pad_iff (n : Nat) : exceedsCap Config.cap .pad n = true ↔ Config.cap - 1 < n :=
  exceedsCap_cap_iff .pad n

theorem exceedsCap_unpad_iff (n : Nat) : exceedsCap Config.cap .unpad n = true ↔ Config.cap < n :=
  exceedsCap_cap_iff .unpad n

theorem exec_pad_of_fits {s : State} (h : s.operandLen ≤ Config.cap - 1) :
    exec .pad s = .next (s.completeOk (pad s.operand)) :=
  exec_utility_of_fits rfl (Bool.eq_false_iff.2 (mt (exceedsCap_pad_iff _).1 (Nat.not_lt.2 h)))

theorem exec_unpad_of_fits {s : State} (h : s.operandLen ≤ Config.cap) :
    exec .unpad s = .next (s.complete (unpad s.operand)) :=
  exec_utility_of_fits rfl (Bool.eq_false_iff.2 (mt (exceedsCap_unpad_iff _).1 (Nat.not_lt.2 h)))

/-- Settles O32: beyond `CAP - 1` the capacity check refuses; else the padded operand is committed. -/
theorem padOperation : Obligations.PadOperation := by
  refine ⟨rfl, fun s => ⟨fun hlarge => ?_, fun hfits => ?_⟩⟩
  · exact exec_of_exceedsCap ((exceedsCap_pad_iff _).2 hlarge)
  · rw [exec_pad_of_fits hfits, State.completeOk, pad_length, pad_eq_append_replicate, operand_length]
    rfl

/-- Settles O33: beyond `CAP` the capacity check refuses; else the answer of `unpad` is committed. -/
theorem unpadOperation : Obligations.UnpadOperation := by
  refine ⟨rfl, fun s => ⟨fun hlarge => ?_, fun hfits y k hpos hle hoperand => ?_, fun hfits hnone => ?_⟩⟩
  · exact exec_of_exceedsCap ((exceedsCap_unpad_iff _).2 hlarge)
  · have hlength := operand_length s
    rw [hoperand, List.length_append, List.length_replicate] at hlength
    have hresult : y.length = s.inLen.toNat - k := Nat.eq_sub_of_add_eq hlength
    rw [exec_unpad_of_fits hfits, hoperand, unpad_append_replicate y hpos hle, ← hresult]
    rfl
  · have hrefused : unpad s.operand = .error .invalidPadding :=
      unpad_eq_invalidPadding fun y k hpos hle hoperand => hnone ⟨y, k, hpos, hle, hoperand⟩
    rw [exec_unpad_of_fits hfits, hrefused]
    rfl

end Sys2Proof.Machine

/-! ECB (rules R120, R122): each function as `E` or `D` of every block by itself, and the operations ECB_ENC
and ECB_DEC, whose result is the function's once the capacity and the key length have passed. -/

namespace Sys2Proof.Machine

/-! ### A function of each block by itself (rules R110, R111) -/

/-- Grouping the first `m` blocks of `data`, transforming each, and ungrouping them again. -/
theorem ungroup_map_blocks (f : Block → Block) (data : Bytes) (m : Nat) :
    ungroup (((List.range m).map fun j => bytesAt 16 data (16 * j)).map f) =
      (List.range m).flatMap fun j => (f (bytesAt 16 data (16 * j))).toList := by
  rw [ungroup, List.map_map, List.flatMap_map]
  rfl

theorem flatMap_blocks_length (f : Block → Block) (data : Bytes) (m : Nat) :
    ((List.range m).flatMap fun j => (f (bytesAt 16 data (16 * j))).toList).length = 16 * m := by
  rw [← ungroup_map_blocks, ungroup_length, List.length_map, List.length_map, List.length_range]

/-- `EcbEnc` block by block: `E` of each block of the padded plaintext (rule R120). -/
theorem ecbEnc_eq_flatMap (c : Cipher) (x : Bytes) (key : Key) :
    ecbEnc c x key = .ok ((List.range (x.length / 16 + 1)).flatMap fun j =>
      (c.enc (bytesAt 16 (pad x) (16 * j)) key).toList) := by
  obtain ⟨P, hgroup, hresult⟩ := ecbEnc_ok c x key
  obtain rfl := Except.ok.inj ((group_pad x).symm.trans hgroup)
  rw [hresult, ungroup_map_blocks fun p => c.enc p key]

/-- `EcbDec` block by block: `unpad` of `D` of each block of the ciphertext (rule R122). -/
theorem ecbDec_eq_unpad_flatMap (c : Cipher) {d : Bytes} (key : Key) (h0 : d.length ≠ 0)
    (haligned : d.length % 16 = 0) :
    ecbDec c d key = unpad ((List.range (d.length / 16)).flatMap fun j =>
      (c.dec (bytesAt 16 d (16 * j)) key).toList) := by
  obtain ⟨C, hgroup, hresult⟩ := ecbDec_of_aligned c d key h0 haligned
  obtain rfl := Except.ok.inj ((group_of_aligned haligned).symm.trans hgroup)
  rw [hresult, ungroup_map_blocks fun y => c.dec y key]

theorem ecbDec_of_invalid_length (c : Cipher) {d : Bytes} (key : Key)
    (h : d.length = 0 ∨ d.length % 16 ≠ 0) : ecbDec c d key = .error .invalidCiphertextLength :=
  if_pos h

/-! ### Execution of a mode operation once the common checks have passed (rule R78) -/

/-- A mode operation without a draw that passes the capacity and key length checks completes with its
function's answer. -/
theorem exec_mode_of_fits {s : State} {i : Instr} (hdraw : ¬ (i = .cbcEnc ∨ i = .ctrEnc))
    (hfit : exceedsCap Config.cap i s.operandLen = false) (hkey : s.keyLen = 16) :
    exec i s = .next (s.complete (s.applyOp i)) := by
  rw [exec_of_no_draw s hdraw, s.execResult_eq_checked, State.checked_of_fits hfit,
    if_neg fun hmode => (keyLen_toNat_ne_iff _).1 hmode.2 hkey]

/-! ### ECB_ENC and ECB_DEC (rules R120, R122) -/

theorem exceedsCap_ecbEnc_iff (n : Nat) : exceedsCap Config.cap .ecbEnc n = true ↔ Config.cap - 1 < n :=
  exceedsCap_cap_iff .ecbEnc n

theorem exceedsCap_ecbDec_iff (n : Nat) : exceedsCap Config.cap .ecbDec n = true ↔ Config.cap < n :=
  exceedsCap_cap_iff .ecbDec n

theorem ecbEnc_fits {n : Nat} (h : n ≤ Config.cap - 1) : exceedsCap Config.cap .ecbEnc n = false :=
  Bool.eq_false_iff.2 (mt (exceedsCap_ecbEnc_iff n).1 (Nat.not_lt.2 h))

theorem ecbDec_fits {n : Nat} (h : n ≤ Config.cap) : exceedsCap Config.cap .ecbDec n = false :=
  Bool.eq_false_iff.2 (mt (exceedsCap_ecbDec_iff n).1 (Nat.not_lt.2 h))

theorem exec_ecbEnc_of_fits {s : State} (h : s.operandLen ≤ Config.cap - 1) (hkey : s.keyLen = 16) :
    exec .ecbEnc s = .next (s.complete (ecbEnc Config.cipher s.operand s.key)) :=
  exec_mode_of_fits (by decide) (ecbEnc_fits h) hkey

theorem exec_ecbDec_of_fits {s : State} (h : s.operandLen ≤ Config.cap) (hkey : s.keyLen = 16) :
    exec .ecbDec s = .next (s.complete (ecbDec Config.cipher s.operand s.key)) :=
  exec_mode_of_fits (by decide) (ecbDec_fits h) hkey

/-- Past all the checks on lengths, ECB_DEC completes with `unpad` of `D` of each block of the operand. -/
theorem exec_ecbDec_of_aligned {s : State} (h : s.inLen.toNat ≤ Config.cap) (hkey : s.keyLen = 16)
    (hpos : s.inLen.toNat ≠ 0) (haligned : s.inLen.toNat % 16 = 0) :
    exec .ecbDec s = .next (s.complete (unpad ((List.range (s.inLen.toNat / 16)).flatMap fun j =>
      (Config.cipher.dec (bytesAt 16 s.operand (16 * j)) s.key).toList))) := by
  have hlength : s.operand.length = s.inLen.toNat := operand_length s
  rw [exec_ecbDec_of_fits h hkey, ecbDec_eq_unpad_flatMap _ _ (by rwa [hlength]) (by rwa [hlength]), hlength]

/-- Settles O36: the two common checks in their order; else `E` of each block of the padded operand is
committed. -/
theorem ecbEncOperation : Obligations.EcbEncOperation := by
  refine ⟨rfl, fun s => ⟨fun hlarge => ?_, fun hfits hkey => ?_, fun hfits hkey => ?_⟩⟩
  · exact exec_of_exceedsCap ((exceedsCap_ecbEnc_iff _).2 hlarge)
  · exact exec_mode_of_keyLen_ne rfl (ecbEnc_fits hfits) hkey
  · rw [exec_ecbEnc_of_fits hfits hkey, ecbEnc_eq_flatMap, State.complete_ok, State.completeOk,
      flatMap_blocks_length fun p => Config.cipher.enc p s.key, operand_length]
    rfl

/-- Settles O37: the two common checks and the check of the ciphertext's length, in their order; else the
answer of `unpad` on `D` of each block of the operand is committed. -/
theorem ecbDecOperation : Obligations.EcbDecOperation := by
  refine ⟨rfl, fun s => ⟨fun hlarge => ?_, fun hfits hkey => ?_, fun hfits hkey hlength => ?_,
    fun hfits hkey hpos haligned => ?_⟩⟩
  · exact exec_of_exceedsCap ((exceedsCap_ecbDec_iff _).2 hlarge)
  · exact exec_mode_of_keyLen_ne rfl (ecbDec_fits hfits) hkey
  · rw [exec_ecbDec_of_fits hfits hkey, ecbDec_of_invalid_length _ _ (by rwa [operand_length])]
    rfl
  · have hexec := exec_ecbDec_of_aligned hfits hkey hpos haligned
    exact ⟨fun y hunpad => by rw [hexec, hunpad]; rfl, fun hunpad => by rw [hexec, hunpad]; rfl⟩

end Sys2Proof.Machine

/-! CBC (rules R130 to R133): each loop as a function of the block's index, and the operations CBC_ENC and
CBC_DEC, whose result is the loop's once the checks have passed. -/

namespace Sys2Proof.Machine

/-! ### Blocks given by their index (rule R111) -/

theorem ungroup_map_range (f : Nat → Block) (m : Nat) :
    ungroup ((List.range m).map f) = (List.range m).flatMap fun i => (f i).toList := by
  rw [ungroup, List.flatMap_map]

/-- The blocks of an aligned sequence after its first one. -/
theorem drop_one_blocks (d : Bytes) (m : Nat) :
    ((List.range m).map fun j => bytesAt 16 d (16 * j)).drop 1 =
      (List.range (m - 1)).map fun i => bytesAt 16 d (16 * (i + 1)) := by
  refine List.ext_getElem (by simp) fun i _ _ => ?_
  simp only [List.getElem_drop, List.getElem_map, List.getElem_range, Nat.add_comm 1 i]

/-! ### The encryption loop (rule R131) -/

/-- `C[i]` of rule R131, from the IV and the plaintext blocks `P[0], P[1], …`. -/
def cbcCipherBlock (c : Cipher) (key : Key) (iv : Block) (P : Nat → Block) : Nat → Block
  | 0 => c.enc (xorBlock (P 0) iv) key
  | i + 1 => c.enc (xorBlock (P (i + 1)) (cbcCipherBlock c key iv P i)) key

/-- The recurrence of rule R131, with `C[-1]` the IV. -/
theorem cbcCipherBlock_eq (c : Cipher) (key : Key) (iv : Block) (P : Nat → Block) (i : Nat) :
    cbcCipherBlock c key iv P i =
      c.enc (xorBlock (P i) (if i = 0 then iv else cbcCipherBlock c key iv P (i - 1))) key := by
  cases i <;> rfl

theorem cbcEncLoop_getElem_eq_cbcCipherBlock (c : Cipher) (key : Key) (iv : Block) (P : Nat → Block)
    (m i : Nat) (h : i < (cbcEncLoop c key iv ((List.range m).map P)).length) :
    (cbcEncLoop c key iv ((List.range m).map P))[i] = cbcCipherBlock c key iv P i := by
  have hblock : i < ((List.range m).map P).length := by rwa [cbcEncLoop_length] at h
  rw [cbcEncLoop_getElem c key iv _ i hblock, List.getElem_map, List.getElem_range]
  induction i with
  | zero => rfl
  | succ i ih =>
    have hprevious : i < ((List.range m).map P).length := Nat.lt_of_succ_lt hblock
    rw [List.getElem_cons_succ, cbcEncLoop_getElem c key iv _ i hprevious, List.getElem_map,
      List.getElem_range, ih (Nat.lt_of_succ_lt h) hprevious]
    rfl

/-- The encryption loop computes the blocks of the recurrence. -/
theorem cbcEncLoop_eq_map (c : Cipher) (key : Key) (iv : Block) (P : Nat → Block) (m : Nat) :
    cbcEncLoop c key iv ((List.range m).map P) = (List.range m).map (cbcCipherBlock c key iv P) := by
  refine List.ext_getElem (by simp) fun i h _ => ?_
  rw [cbcEncLoop_getElem_eq_cbcCipherBlock c key iv P m i h, List.getElem_map, List.getElem_range]

/-- `CbcEnc`: the IV, then the chained blocks of the padded plaintext. -/
theorem cbcEnc_eq_flatMap (c : Cipher) (x : Bytes) (key : Key) (iv : Block) :
    cbcEnc c x key iv = .ok (iv.toList ++ (List.range (x.length / 16 + 1)).flatMap fun i =>
      (cbcCipherBlock c key iv (fun j => bytesAt 16 (pad x) (16 * j)) i).toList) := by
  obtain ⟨P, hgroup, hresult⟩ := cbcEnc_ok c x key iv
  obtain rfl := Except.ok.inj ((group_pad x).symm.trans hgroup)
  rw [hresult, cbcEncLoop_eq_map, ungroup_map_range]

/-! ### The decryption loop (rule R133) -/

/-- The decryption loop on the blocks `Y[1], Y[2], …`, started with `previous = Y[0]`: each block needs only
the ciphertext block before it. -/
theorem cbcDecLoop_eq_map (c : Cipher) (key : Key) (Y : Nat → Block) (m : Nat) :
    cbcDecLoop c key (Y 0) ((List.range m).map fun i => Y (i + 1)) =
      (List.range m).map fun i => xorBlock (c.dec (Y (i + 1)) key) (Y i) := by
  refine List.ext_getElem (by simp) fun i h _ => ?_
  rw [cbcDecLoop_length] at h
  rw [cbcDecLoop_getElem c key _ _ i h]
  cases i <;> simp

/-- `CbcDec` block by block: `unpad` of the unchained blocks of the ciphertext. -/
theorem cbcDec_eq_unpad_flatMap (c : Cipher) {d : Bytes} (key : Key) (hlong : 32 ≤ d.length)
    (haligned : d.length % 16 = 0) :
    cbcDec c d key = unpad ((List.range (d.length / 16 - 1)).flatMap fun i =>
      (xorBlock (c.dec (bytesAt 16 d (16 * (i + 1))) key) (bytesAt 16 d (16 * i))).toList) := by
  obtain ⟨blocks, hgroup, hresult⟩ := cbcDec_of_aligned c d key hlong haligned
  obtain rfl := Except.ok.inj ((group_of_aligned haligned).symm.trans hgroup)
  rw [hresult, drop_one_blocks, cbcDecLoop_eq_map c key fun j => bytesAt 16 d (16 * j),
    ungroup_map_range]

theorem cbcDec_of_short (c : Cipher) {d : Bytes} (key : Key) (h : d.length < 32) :
    cbcDec c d key = .error .ciphertextTooShort :=
  if_pos h

theorem cbcDec_of_unaligned (c : Cipher) {d : Bytes} (key : Key) (hlong : 32 ≤ d.length)
    (h : d.length % 16 ≠ 0) : cbcDec c d key = .error .invalidCiphertextLength := by
  rw [cbcDec, if_neg (Nat.not_lt.2 hlong), if_pos h]

/-! ### Execution of an operation that takes a draw (rules R78, R81) -/

/-- An encryption in CBC or CTR that passes the capacity and key length checks counts one request and
completes with its function's answer. -/
theorem exec_draw_of_fits {s : State} {i : Instr} {out : Bytes} (hdraw : i = .cbcEnc ∨ i = .ctrEnc)
    (hfit : exceedsCap Config.cap i s.operandLen = false) (hkey : s.keyLen = 16)
    (hout : s.applyOp i = .ok out) :
    exec i s = .next ({ s with draws := s.draws + 1 }.completeOk out) := by
  rw [exec_eq_commit, s.execResult_eq_checked, State.checked_of_fits hfit,
    if_neg fun hmode => (keyLen_toNat_ne_iff _).1 hmode.2 hkey, hout, State.drawsAfter, if_pos hdraw,
    State.complete_ok]

/-! ### CBC_ENC (rule R131) -/

theorem exceedsCap_cbcEnc_iff (n : Nat) : exceedsCap Config.cap .cbcEnc n = true ↔ Config.cap - 17 < n :=
  exceedsCap_cap_iff .cbcEnc n

theorem cbcEnc_fits {n : Nat} (h : n ≤ Config.cap - 17) : exceedsCap Config.cap .cbcEnc n = false :=
  Bool.eq_false_iff.2 (mt (exceedsCap_cbcEnc_iff n).1 (Nat.not_lt.2 h))

/-- The result of CBC_ENC is one block, the IV, longer than the padded plaintext. -/
theorem iv_append_blocks_length (iv : Block) (C : Nat → Block) (m : Nat) :
    (iv.toList ++ (List.range m).flatMap fun i => (C i).toList).length = 16 * (m + 1) := by
  rw [← ungroup_map_range, List.length_append, ungroup_length, List.length_map, List.length_range,
    Vector.length_toList]
  omega

/-- Settles O38: the two common checks in their order; else the request is counted, and the IV that it
answered and the blocks of the recurrence are committed. -/
theorem cbcEncOperation : Obligations.CbcEncOperation := by
  refine ⟨rfl, fun s => ⟨fun hlarge => ?_, fun hfits hkey => ?_, fun hfits hkey => ?_⟩⟩
  · exact exec_of_exceedsCap ((exceedsCap_cbcEnc_iff _).2 hlarge)
  · exact exec_mode_of_keyLen_ne rfl (cbcEnc_fits hfits) hkey
  · have hresult := cbcEnc_eq_flatMap Config.cipher s.operand s.key (Config.rand s.draws 16)
    refine ⟨_, fun i _ => cbcCipherBlock_eq _ _ _ (fun j => bytesAt 16 (pad s.operand) (16 * j)) i, ?_⟩
    rw [exec_draw_of_fits (.inl rfl) (cbcEnc_fits hfits) hkey hresult, State.completeOk,
      iv_append_blocks_length, operand_length]
    rfl

/-! ### CBC_DEC (rule R133) -/

theorem exceedsCap_cbcDec_iff (n : Nat) : exceedsCap Config.cap .cbcDec n = true ↔ Config.cap < n :=
  exceedsCap_cap_iff .cbcDec n

theorem cbcDec_fits {n : Nat} (h : n ≤ Config.cap) : exceedsCap Config.cap .cbcDec n = false :=
  Bool.eq_false_iff.2 (mt (exceedsCap_cbcDec_iff n).1 (Nat.not_lt.2 h))

theorem exec_cbcDec_of_fits {s : State} (h : s.operandLen ≤ Config.cap) (hkey : s.keyLen = 16) :
    exec .cbcDec s = .next (s.complete (cbcDec Config.cipher s.operand s.key)) :=
  exec_mode_of_fits (by decide) (cbcDec_fits h) hkey

/-- Past all the checks on lengths, CBC_DEC completes with `unpad` of the unchained blocks of the operand. -/
theorem exec_cbcDec_of_aligned {s : State} (h : s.inLen.toNat ≤ Config.cap) (hkey : s.keyLen = 16)
    (hlong : 32 ≤ s.inLen.toNat) (haligned : s.inLen.toNat % 16 = 0) :
    exec .cbcDec s = .next (s.complete (unpad ((List.range (s.inLen.toNat / 16 - 1)).flatMap fun i =>
      (xorBlock (Config.cipher.dec (bytesAt 16 s.operand (16 * (i + 1))) s.key)
        (bytesAt 16 s.operand (16 * i))).toList))) := by
  have hlength : s.operand.length = s.inLen.toNat := operand_length s
  rw [exec_cbcDec_of_fits h hkey, cbcDec_eq_unpad_flatMap _ _ (by rwa [hlength]) (by rwa [hlength]), hlength]

/-- Settles O39: the two common checks and the two checks of the ciphertext's length, in their order; else
the answer of `unpad` on the unchained blocks is committed. An operand too short to hold two blocks always
passes the capacity check, for `CAP` is at least 1024. -/
theorem cbcDecOperation : Obligations.CbcDecOperation := by
  refine ⟨rfl, fun s => ⟨fun hlarge => ?_, fun hfits hkey => ?_, fun hkey hshort => ?_,
    fun hfits hkey hlong hunaligned => ?_, fun hfits hkey hlong haligned => ?_⟩⟩
  · exact exec_of_exceedsCap ((exceedsCap_cbcDec_iff _).2 hlarge)
  · exact exec_mode_of_keyLen_ne rfl (cbcDec_fits hfits) hkey
  · have hcap : 32 ≤ Config.cap := le_trans (by decide) cap_aligned_and_large.2
    rw [exec_cbcDec_of_fits (hshort.le.trans hcap) hkey, cbcDec_of_short _ _ (by rwa [operand_length])]
    rfl
  · rw [exec_cbcDec_of_fits hfits hkey,
      cbcDec_of_unaligned _ _ (by rwa [operand_length]) (by rwa [operand_length])]
    rfl
  · have hexec := exec_cbcDec_of_aligned hfits hkey hlong haligned
    exact ⟨fun y hunpad => by rw [hexec, hunpad]; rfl, fun hunpad => by rw [hexec, hunpad]; rfl⟩

end Sys2Proof.Machine

/-! CTR (rules R140 to R145): the counter as a function of the block's index, the loop as a function of that
index, and the operations CTR_ENC and CTR_DEC, whose result is the loop's once the checks have passed. -/

namespace Sys2Proof.Machine

/-! ### The counter of a block (rules R14, R142, R162) -/

/-- The `m` lowest digits of `v` to the base 256, most significant first, are read back as `v` modulo
`256 ^ m`. -/
theorem foldl_be_digits (m v : Nat) :
    ((List.range m).map fun j => BitVec.ofNat 8 (v / 256 ^ (m - 1 - j))).foldl
      (fun acc (b : Byte) => acc * 256 + b.toNat) 0 = v % 256 ^ m := by
  induction m generalizing v with
  | zero => simp [Nat.mod_one]
  | succ m ih =>
    have hhigh : ((List.range m).map fun j => BitVec.ofNat 8 (v / 256 ^ (m - j))) =
        (List.range m).map fun j => BitVec.ofNat 8 (v / 256 / 256 ^ (m - 1 - j)) := by
      refine List.map_congr_left fun j hj => ?_
      have hlt : j < m := List.mem_range.1 hj
      rw [Nat.div_div_eq_div_mul, ← Nat.pow_succ', show m - j = (m - 1 - j).succ by omega]
    have hlow : (BitVec.ofNat 8 (v / 256 ^ (m - m))).toNat = v % 256 := by simp
    rw [Nat.add_sub_cancel, List.range_succ, List.map_append, List.foldl_append, hhigh, ih, List.map_singleton,
      List.foldl_cons, List.foldl_nil, hlow, Nat.pow_succ', Nat.mod_mul]
    omega

theorem be64inv_toList (v : Nat) :
    (be64inv v).toList = (List.range 8).map fun j => BitVec.ofNat 8 (v / 256 ^ (8 - 1 - j)) :=
  List.ext_getElem (by simp) fun j _ _ => by simp [be64inv]

theorem be64_be64inv (v : Nat) : be64 (be64inv v) = v % 2 ^ 64 := by
  rw [be64, be64inv_toList]
  exact foldl_be_digits 8 v

/-- The eight bytes hold the lowest 64 bits of a number. -/
theorem be64inv_mod (v : Nat) : be64inv (v % 2 ^ 64) = be64inv v := by
  refine Vector.ext fun j hj => BitVec.eq_of_toNat_eq ?_
  have hsplit : (2 : Nat) ^ 64 = 256 ^ (7 - j) * (256 * 256 ^ j) := by
    rw [← Nat.pow_succ', ← Nat.pow_add, show 7 - j + j.succ = 8 by omega]
    rfl
  simp only [be64inv, Vector.getElem_ofFn, BitVec.toNat_ofNat]
  rw [hsplit, Nat.mod_mul_right_div_self]
  exact Nat.mod_mul_right_mod ..

theorem inc_be64inv (v : Nat) : inc (be64inv v) = be64inv (v + 1) := by
  rw [inc, be64_be64inv, Nat.mod_add_mod, be64inv_mod]

theorem counterZero_eq_be64inv : counterZero = be64inv 0 := by decide

/-- The counter of block `i` (rule R142). -/
theorem iterate_inc_counterZero (i : Nat) : inc^[i] counterZero = be64inv i := by
  induction i with
  | zero => exact counterZero_eq_be64inv
  | succ i ih => rw [Function.iterate_succ_apply', ih, inc_be64inv]

/-! ### The loop of both directions (rules R143, R145) -/

/-- The loop xors block `i` with the encrypted counter block of index `i`. -/
theorem ctrLoop_eq_map (c : Cipher) (key : Key) (nonce : Half) (X : Nat → Block) (m : Nat) :
    ctrLoop c key nonce counterZero ((List.range m).map X) =
      (List.range m).map fun i => xorBlock (X i) (c.enc (nonce ++ be64inv i) key) := by
  refine List.ext_getElem (by simp) fun i h _ => ?_
  rw [ctrLoop_length] at h
  rw [ctrLoop_getElem c key nonce _ _ i h, iterate_inc_counterZero, List.getElem_map, List.getElem_map,
    List.getElem_range, counterBlock]

/-- `CtrEnc`: the nonce block, then the blocks of the padded plaintext xored with the keystream. -/
theorem ctrEnc_eq_flatMap (c : Cipher) (x : Bytes) (key : Key) (nonce : Half) :
    ctrEnc c x key nonce = .ok (nonce.toList ++ List.replicate 8 0 ++
      (List.range (x.length / 16 + 1)).flatMap fun i =>
        (xorBlock (bytesAt 16 (pad x) (16 * i)) (c.enc (nonce ++ be64inv i) key)).toList) := by
  obtain ⟨P, hgroup, hresult⟩ := ctrEnc_ok c x key nonce
  obtain rfl := Except.ok.inj ((group_pad x).symm.trans hgroup)
  rw [hresult, ctrLoop_eq_map, ungroup_map_range]
  rfl

/-- `CtrDec` block by block: `unpad` of the blocks after the nonce block, xored with the keystream. -/
theorem ctrDec_eq_unpad_flatMap (c : Cipher) {d : Bytes} (key : Key) (hlong : 32 ≤ d.length)
    (haligned : d.length % 16 = 0) :
    ctrDec c d key = unpad ((List.range (d.length / 16 - 1)).flatMap fun i =>
      (xorBlock (bytesAt 16 d (16 * (i + 1))) (c.enc (bytesAt 8 d 0 ++ be64inv i) key)).toList) := by
  obtain ⟨blocks, hgroup, hresult⟩ := ctrDec_of_aligned c d key hlong haligned
  obtain rfl := Except.ok.inj ((group_of_aligned haligned).symm.trans hgroup)
  rw [hresult, drop_one_blocks, ctrLoop_eq_map, ungroup_map_range]

theorem ctrDec_of_short (c : Cipher) {d : Bytes} (key : Key) (h : d.length < 32) :
    ctrDec c d key = .error .ciphertextTooShort :=
  if_pos h

theorem ctrDec_of_unaligned (c : Cipher) {d : Bytes} (key : Key) (hlong : 32 ≤ d.length)
    (h : d.length % 16 ≠ 0) : ctrDec c d key = .error .invalidCiphertextLength := by
  rw [ctrDec, if_neg (Nat.not_lt.2 hlong), if_pos h]

/-! ### CTR_ENC (rule R143) -/

theorem exceedsCap_ctrEnc_iff (n : Nat) : exceedsCap Config.cap .ctrEnc n = true ↔ Config.cap - 17 < n :=
  exceedsCap_cap_iff .ctrEnc n

theorem ctrEnc_fits {n : Nat} (h : n ≤ Config.cap - 17) : exceedsCap Config.cap .ctrEnc n = false :=
  Bool.eq_false_iff.2 (mt (exceedsCap_ctrEnc_iff n).1 (Nat.not_lt.2 h))

/-- The result of CTR_ENC is one block, the nonce block, longer than the padded plaintext. -/
theorem nonceBlock_append_blocks_length (nonce : Half) (C : Nat → Block) (m : Nat) :
    (nonce.toList ++ List.replicate 8 0 ++ (List.range m).flatMap fun i => (C i).toList).length =
      16 * (m + 1) := by
  rw [← ungroup_map_range, List.length_append, List.length_append, ungroup_length, List.length_map,
    List.length_range, List.length_replicate, Vector.length_toList]
  omega

/-- Settles O40: the two common checks in their order; else the request is counted, and the nonce that it
answered, its eight zero bytes and the blocks xored with the keystream are committed. -/
theorem ctrEncOperation : Obligations.CtrEncOperation := by
  refine ⟨rfl, fun s => ⟨fun hlarge => ?_, fun hfits hkey => ?_, fun hfits hkey => ?_⟩⟩
  · exact exec_of_exceedsCap ((exceedsCap_ctrEnc_iff _).2 hlarge)
  · exact exec_mode_of_keyLen_ne rfl (ctrEnc_fits hfits) hkey
  · have hresult := ctrEnc_eq_flatMap Config.cipher s.operand s.key (Config.rand s.draws 8)
    rw [exec_draw_of_fits (.inr rfl) (ctrEnc_fits hfits) hkey hresult, State.completeOk,
      nonceBlock_append_blocks_length, operand_length]
    rfl

/-! ### CTR_DEC (rule R145) -/

theorem exceedsCap_ctrDec_iff (n : Nat) : exceedsCap Config.cap .ctrDec n = true ↔ Config.cap < n :=
  exceedsCap_cap_iff .ctrDec n

theorem ctrDec_fits {n : Nat} (h : n ≤ Config.cap) : exceedsCap Config.cap .ctrDec n = false :=
  Bool.eq_false_iff.2 (mt (exceedsCap_ctrDec_iff n).1 (Nat.not_lt.2 h))

theorem exec_ctrDec_of_fits {s : State} (h : s.operandLen ≤ Config.cap) (hkey : s.keyLen = 16) :
    exec .ctrDec s = .next (s.complete (ctrDec Config.cipher s.operand s.key)) :=
  exec_mode_of_fits (by decide) (ctrDec_fits h) hkey

/-- Past all the checks on lengths, CTR_DEC completes with `unpad` of the operand's blocks xored with the
keystream. -/
theorem exec_ctrDec_of_aligned {s : State} (h : s.inLen.toNat ≤ Config.cap) (hkey : s.keyLen = 16)
    (hlong : 32 ≤ s.inLen.toNat) (haligned : s.inLen.toNat % 16 = 0) :
    exec .ctrDec s = .next (s.complete (unpad ((List.range (s.inLen.toNat / 16 - 1)).flatMap fun i =>
      (xorBlock (bytesAt 16 s.operand (16 * (i + 1)))
        (Config.cipher.enc (bytesAt 8 s.operand 0 ++ be64inv i) s.key)).toList))) := by
  have hlength : s.operand.length = s.inLen.toNat := operand_length s
  rw [exec_ctrDec_of_fits h hkey, ctrDec_eq_unpad_flatMap _ _ (by rwa [hlength]) (by rwa [hlength]), hlength]

/-- Settles O41: the two common checks and the two checks of the ciphertext's length, in their order; else
the answer of `unpad` on the blocks xored with the keystream is committed. An operand shorter than 32 bytes
always passes the capacity check, for `CAP` is at least 1024. -/
theorem ctrDecOperation : Obligations.CtrDecOperation := by
  refine ⟨rfl, fun s => ⟨fun hlarge => ?_, fun hfits hkey => ?_, fun hkey hshort => ?_,
    fun hfits hkey hlong hunaligned => ?_, fun hfits hkey hlong haligned => ?_⟩⟩
  · exact exec_of_exceedsCap ((exceedsCap_ctrDec_iff _).2 hlarge)
  · exact exec_mode_of_keyLen_ne rfl (ctrDec_fits hfits) hkey
  · have hcap : 32 ≤ Config.cap := le_trans (by decide) cap_aligned_and_large.2
    rw [exec_ctrDec_of_fits (hshort.le.trans hcap) hkey, ctrDec_of_short _ _ (by rwa [operand_length])]
    rfl
  · rw [exec_ctrDec_of_fits hfits hkey,
      ctrDec_of_unaligned _ _ (by rwa [operand_length]) (by rwa [operand_length])]
    rfl
  · have hexec := exec_ctrDec_of_aligned hfits hkey hlong haligned
    exact ⟨fun y hunpad => by rw [hexec, hunpad]; rfl, fun hunpad => by rw [hexec, hunpad]; rfl⟩

end Sys2Proof.Machine

/-! Block XOR and the counter increment (rules R161 to R163): `inc` on numbers and on bytes, and the operations
XOR and INC, whose result is their function's once the capacity check has passed. -/

namespace Sys2Proof.Machine

/-! ### Big-endian numbers of any length (rule R14) -/

/-- The number whose big-endian bytes are the first `m` of `d`. -/
def beNat (d : Nat → Byte) (m : Nat) : Nat :=
  ((List.range m).map d).foldl (fun acc b => acc * 256 + b.toNat) 0

theorem beNat_succ (d : Nat → Byte) (m : Nat) : beNat d (m + 1) = beNat d m * 256 + (d m).toNat := by
  simp only [beNat, List.range_succ, List.map_append, List.map_singleton, List.foldl_append, List.foldl_cons,
    List.foldl_nil]

/-- `be64` is the number of the eight bytes, however these are given. -/
theorem be64_eq_beNat {ctr : Half} {d : Nat → Byte} (h : ∀ j (hj : j < 8), ctr[j] = d j) : be64 ctr = beNat d 8 := by
  have hbytes : ctr.toList = (List.range 8).map d := List.ext_getElem (by simp) fun j hj _ => by
    simpa using h j (by simpa using hj)
  rw [be64, hbytes, beNat]

theorem beNat_eq_sum (d : Nat → Byte) (m : Nat) :
    beNat d m = ((List.range m).map fun j => (d j).toNat * 256 ^ (m - 1 - j)).sum := by
  induction m with
  | zero => rfl
  | succ m ih =>
    have hshift : ((List.range m).map fun j => (d j).toNat * 256 ^ (m - j)) =
        (List.range m).map fun j => (d j).toNat * 256 ^ (m - 1 - j) * 256 := by
      refine List.map_congr_left fun j hj => ?_
      have hlt : j < m := List.mem_range.1 hj
      rw [Nat.mul_assoc, ← Nat.pow_succ, show m - j = (m - 1 - j).succ by omega]
    rw [beNat_succ, ih, List.range_succ, List.map_append, List.sum_append, Nat.add_sub_cancel, hshift,
      List.sum_map_mul_right]
    simp

/-- Division by a power of 256 drops the last bytes. -/
theorem beNat_div_pow (d : Nat → Byte) (m k : Nat) : beNat d (m + k) / 256 ^ k = beNat d m := by
  induction k with
  | zero => simp
  | succ k ih =>
    have hlast : (beNat d (m + k) * 256 + (d (m + k)).toNat) / 256 = beNat d (m + k) := by omega
    rw [← Nat.add_assoc, beNat_succ, Nat.pow_succ', ← Nat.div_div_eq_div_mul, hlast, ih]

/-- `be64` as the sum of its bytes times their weights. -/
theorem be64_eq_sum (ctr : Half) :
    be64 ctr = ((List.finRange 8).map fun j => ctr[j].toNat * 256 ^ (7 - j.val)).sum := by
  rw [be64_eq_beNat fun j hj => (getElem!_pos ctr j hj).symm, beNat_eq_sum, ← List.map_coe_finRange_eq_range,
    List.map_map]
  refine congrArg List.sum (List.map_congr_left fun j _ => ?_)
  rw [Function.comp_apply, getElem!_pos ctr j.val j.isLt]
  rfl

/-- The byte of weight `256 ^ (7 - j)` is byte `j`. -/
theorem be64_digit (ctr : Half) {j : Nat} (hj : j < 8) : be64 ctr / 256 ^ (7 - j) % 256 = ctr[j].toNat := by
  have hbytes : ∀ i (hi : i < 8), ctr[i] = ctr[i]! := fun i hi => (getElem!_pos ctr i hi).symm
  have hleading : be64 ctr / 256 ^ (7 - j) = beNat (fun i => ctr[i]!) (j + 1) := by
    rw [be64_eq_beNat hbytes, ← beNat_div_pow _ (j + 1) (7 - j), show j + 1 + (7 - j) = 8 by omega]
  rw [hleading, beNat_succ, hbytes j hj]
  omega

/-! ### `inc` on numbers and on bytes (rule R162) -/

theorem be64_inc (ctr : Half) : be64 (inc ctr) = (be64 ctr + 1) % 2 ^ 64 := by
  rw [inc, be64_be64inv, Nat.mod_mod]

/-- The carry of `n + 1` passes the `k` lowest digits to the base 256 exactly when all of them are 255. -/
theorem pow_dvd_succ_iff (n k : Nat) : 256 ^ k ∣ n + 1 ↔ ∀ i, i < k → n / 256 ^ i % 256 = 255 := by
  induction k with
  | zero => simp
  | succ k ih =>
    have hdigit (hcarry : 256 ^ k ∣ n + 1) : 256 ^ (k + 1) ∣ n + 1 ↔ n / 256 ^ k % 256 = 255 := by
      rw [Nat.pow_succ, ← Nat.dvd_div_iff_mul_dvd hcarry, Nat.succ_div_of_dvd hcarry]
      omega
    rw [Nat.forall_lt_succ_right, ← ih, ← and_congr_right hdigit]
    exact (and_iff_right_of_imp (Nat.pow_dvd_pow 256 k.le_succ).trans).symm

/-- The carry reaches byte `m` exactly when all the bytes after it are `0xFF`. -/
theorem pow_dvd_be64_succ_iff (ctr : Half) (m : Fin 8) :
    256 ^ (7 - m.val) ∣ be64 ctr + 1 ↔ ∀ l : Fin 8, m < l → ctr[l] = 0xFF := by
  have hfull (l : Fin 8) : ctr[l] = 0xFF ↔ be64 ctr / 256 ^ (7 - l.val) % 256 = 255 := by
    rw [be64_digit ctr l.isLt]
    exact BitVec.toNat_eq
  rw [pow_dvd_succ_iff]
  refine ⟨fun h l hl => (hfull l).2 (h _ (by omega)), fun h i hi => ?_⟩
  have hdigit := (hfull ⟨7 - i, by omega⟩).1 (h _ (Fin.lt_def.2 (by dsimp only; omega)))
  rwa [show 7 - (7 - i) = i by omega] at hdigit

/-- `inc` byte by byte: each byte of `ctr` plus the carry that reaches it. -/
theorem inc_getElem (ctr : Half) (m : Fin 8) :
    (inc ctr)[m] = ctr[m] + if ∀ l : Fin 8, m < l → ctr[l] = 0xFF then 1 else 0 := by
  have hbyte : BitVec.ofNat 8 (be64 ctr / 256 ^ (7 - m.val)) = ctr[m] :=
    BitVec.eq_of_toNat_eq ((BitVec.toNat_ofNat ..).trans (be64_digit ctr m.isLt))
  have hinc : (inc ctr)[m] = BitVec.ofNat 8 ((be64 ctr + 1) / 256 ^ (7 - m.val)) := by
    rw [inc, be64inv_mod, be64inv, Fin.getElem_fin, Vector.getElem_ofFn]
  rw [hinc, Nat.succ_div, BitVec.ofNat_add, hbyte, apply_ite (BitVec.ofNat 8)]
  exact congrArg (ctr[m] + ·) (if_congr (pow_dvd_be64_succ_iff ctr m) rfl rfl)

/-- Settles O48: the number form, then the byte form by the carry, which passes the bytes `0xFF` at the end and
reaches no byte before the last one that is not `0xFF`. -/
theorem incNumberAndByteForms : Obligations.IncNumberAndByteForms := by
  refine fun ctr => ⟨be64_eq_sum ctr, be64_inc ctr, fun hall => ?_,
    fun j hj hafter => ⟨?_, fun m hm => ?_, fun m hm => ?_⟩⟩
  · refine Vector.ext fun j hj => ?_
    have hbyte := inc_getElem ctr ⟨j, hj⟩
    rw [if_pos fun l _ => hall l, hall] at hbyte
    exact hbyte.trans (Vector.getElem_replicate hj).symm
  · rw [inc_getElem, if_pos hafter]
  · rw [inc_getElem, if_pos fun l hl => hafter l (hm.trans hl), hafter m hm]
    rfl
  · rw [inc_getElem, if_neg fun h => hj (h j hm)]
    exact BitVec.add_zero _

/-! ### XOR and INC (rules R161, R163) -/

theorem exceedsCap_xor_iff (n : Nat) : exceedsCap Config.cap .xor n = true ↔ Config.cap < n :=
  exceedsCap_cap_iff .xor n

theorem exceedsCap_inc_iff (n : Nat) : exceedsCap Config.cap .inc n = true ↔ Config.cap < n :=
  exceedsCap_cap_iff .inc n

theorem exec_xor_of_fits {s : State} (h : s.operandLen ≤ Config.cap) :
    exec .xor s = .next (s.complete (xorOp s.operand)) :=
  exec_utility_of_fits rfl (Bool.eq_false_iff.2 (mt (exceedsCap_xor_iff _).1 (Nat.not_lt.2 h)))

theorem exec_inc_of_fits {s : State} (h : s.operandLen ≤ Config.cap) :
    exec .inc s = .next (s.complete (incOp s.operand)) :=
  exec_utility_of_fits rfl (Bool.eq_false_iff.2 (mt (exceedsCap_inc_iff _).1 (Nat.not_lt.2 h)))

/-- A slice of the operand is read from `IN`. -/
theorem bytesAt_operand_getElem {s : State} {n a j : Nat} (h : a + n ≤ s.operandLen) (hj : j < n) :
    (bytesAt n s.operand a)[j] = s.inBuf.read (a + j) := by
  have hlt : a + j < s.operand.length := by
    rw [operand_length]
    omega
  rw [bytesAt_getElem n _ a j hj, List.getD_eq_getElem _ _ hlt, operand_getElem]

theorem xorOp_of_invalid_length {data : Bytes} (h : data.length ≠ 32) : xorOp data = .error .invalidLength :=
  if_pos h

theorem incOp_of_invalid_length {data : Bytes} (h : data.length ≠ 8) : incOp data = .error .invalidLength :=
  if_pos h

/-- `Xor_op` on the two blocks in `IN`. -/
theorem xorOp_operand {s : State} (h : s.operandLen = 32) :
    xorOp s.operand = .ok ((List.range 16).map fun j => s.inBuf.read j ^^^ s.inBuf.read (16 + j)) := by
  have hbytes : (xorBlock (bytesAt 16 s.operand 0) (bytesAt 16 s.operand 16)).toList =
      (List.range 16).map fun j => s.inBuf.read j ^^^ s.inBuf.read (16 + j) := by
    refine List.ext_getElem (by simp) fun j hj _ => ?_
    have hlt : j < 16 := by simpa using hj
    simp only [xorBlock, Vector.getElem_toList, Vector.getElem_ofFn, List.getElem_map, List.getElem_range,
      Fin.getElem_fin]
    rw [bytesAt_operand_getElem (by omega) hlt, bytesAt_operand_getElem (by omega) hlt, Nat.zero_add]
  rw [xorOp, if_neg (not_not.2 ((operand_length s).trans h)), hbytes]

/-- `Inc_op` on the counter in `IN`. -/
theorem incOp_operand {s : State} (h : s.operandLen = 8) :
    incOp s.operand = .ok ((List.range 8).map fun j =>
      BitVec.ofNat 8 ((beNat s.inBuf.read 8 + 1) % 2 ^ 64 / 256 ^ (7 - j))) := by
  have hnumber : be64 (bytesAt 8 s.operand 0) = beNat s.inBuf.read 8 :=
    be64_eq_beNat fun j hj => by rw [bytesAt_operand_getElem h.ge hj, Nat.zero_add]
  rw [incOp, if_neg (not_not.2 ((operand_length s).trans h)), inc, hnumber, be64inv_toList]

theorem le_cap_of_le_32 {n : Nat} (h : n ≤ 32) : n ≤ Config.cap :=
  h.trans (le_trans (by decide) cap_aligned_and_large.2)

/-- Settles O34: beyond `CAP` the capacity check refuses; else any length but 32 is refused, and the xor of the
two blocks in `IN` is committed. -/
theorem xorOperation : Obligations.XorOperation := by
  refine ⟨rfl, fun s => ⟨fun hlarge => ?_, fun hfits hlength => ?_, fun hlength => ?_⟩⟩
  · exact exec_of_exceedsCap ((exceedsCap_xor_iff _).2 hlarge)
  · rw [exec_xor_of_fits hfits, xorOp_of_invalid_length (by rwa [operand_length])]
    rfl
  · rw [exec_xor_of_fits (le_cap_of_le_32 hlength.le), xorOp_operand hlength]
    rfl

/-- Settles O35: beyond `CAP` the capacity check refuses; else any length but 8 is refused, and the counter in
`IN` plus 1 is committed. -/
theorem incOperation : Obligations.IncOperation := by
  refine ⟨rfl, fun s => ⟨fun hlarge => ?_, fun hfits hlength => ?_, fun hlength => ?_⟩⟩
  · exact exec_of_exceedsCap ((exceedsCap_inc_iff _).2 hlarge)
  · rw [exec_inc_of_fits hfits, incOp_of_invalid_length (by rwa [operand_length])]
    rfl
  · rw [exec_inc_of_fits (le_cap_of_le_32 (hlength.le.trans (by decide))), incOp_operand hlength, beNat_eq_sum]
    rfl

end Sys2Proof.Machine


/-! The exceptions (rules R170 to R187): what a completion reports in `STATUS`, the order of the checks, and the
matrix of which operation can report which error kind. -/

namespace Sys2Proof.Machine

/-! ### What a completion reports (rules R79, R175) -/

theorem statusError_injective : Function.Injective statusError := by
  intro K K' h
  cases K <;> cases K' <;> revert h <;> decide

theorem statusDone_ne_statusError (K : ErrorKind) : statusDone ≠ statusError K := by
  cases K <;> decide

theorem State.complete_status_cases (u : State) (r : Result) :
    (u.complete r).status = statusDone ∨ ∃ K, (u.complete r).status = statusError K := by
  cases r with
  | ok out => exact .inl rfl
  | error K => exact .inr ⟨K, rfl⟩

/-- `STATUS` after a completion tells the error kind of the result. -/
theorem State.complete_status_eq_statusError_iff (u : State) (r : Result) (K : ErrorKind) :
    (u.complete r).status = statusError K ↔ r = .error K := by
  cases r with
  | ok out => exact iff_of_false (statusDone_ne_statusError K) nofun
  | error K' =>
    exact ⟨fun h => congrArg _ (statusError_injective h), fun h => congrArg statusError (Except.error.inj h)⟩

/-- Settles O13: `exec` and the engine's step both complete with a result, and `STATUS` after a completion is
one of the eight words. -/
theorem everyCommandCompletes : Obligations.EveryCommandCompletes := by
  refine ⟨fun i s => ?_, fun s rest hbusy hnext => ?_⟩
  · obtain ⟨d, hexec⟩ := exec_eq_complete i s
    exact ⟨_, hexec, State.complete_status_cases _ _⟩
  · obtain ⟨d, hturn⟩ := engineTurn_of_busy (s := { s with schedule := rest }) hbusy
    exact ⟨_, (step_of_engineMovesNext hnext).trans hturn, State.complete_schedule _ _,
      State.complete_status_cases _ _⟩

/-- Settles O15: the step completes with a result; a result that is not `Ok` is an error, which clears `OUT`. -/
theorem errorLeavesNoResult : Obligations.ErrorLeavesNoResult := by
  intro s t rest hbusy hnext hstep hstatus
  obtain ⟨u, hu⟩ := step_completes hbusy hnext
  obtain rfl := Host.Outcome.next.inj (hu.symm.trans hstep)
  cases hr : s.resultOf s.cmdLatch with
  | ok out =>
    rw [hr] at hstatus
    exact absurd rfl hstatus
  | error K => exact ⟨fun j => ite_self 0, rfl, rfl, K, rfl⟩

/-! ### The order of the checks (rule R179) -/

/-- The operations that can report an error kind: a column of the matrix of rule R186. -/
def ErrorKind.reporters : ErrorKind → List Instr
  | .invalidKeyLength => [.ecbEnc, .ecbDec, .cbcEnc, .cbcDec, .ctrEnc, .ctrDec]
  | .invalidCiphertextLength => [.ecbDec, .cbcDec, .ctrDec]
  | .ciphertextTooShort => [.cbcDec, .ctrDec]
  | .invalidPadding => [.unpad, .ecbDec, .cbcDec, .ctrDec]
  | .invalidLength => [.xor, .inc]
  | .illegalOperation => []
  | .capacityExceeded => Instr.all

/-- The first of the checks 3 to 6 of rule R179 that applies to operation `i` with `IN_LEN = n` and
`KEY_LEN = klen`. -/
def lengthCheck (i : Instr) (n klen : Nat) : Option ErrorKind :=
  if (i = .xor ∧ n ≠ 32) ∨ (i = .inc ∧ n ≠ 8) then some .invalidLength
  else if i ∈ [.ecbEnc, .ecbDec, .cbcEnc, .cbcDec, .ctrEnc, .ctrDec] ∧ klen ≠ 16 then some .invalidKeyLength
  else if (i = .cbcDec ∨ i = .ctrDec) ∧ n < 32 then some .ciphertextTooShort
  else if (i = .ecbDec ∧ (n = 0 ∨ n % 16 ≠ 0)) ∨ ((i = .cbcDec ∨ i = .ctrDec) ∧ n % 16 ≠ 0) then
    some .invalidCiphertextLength
  else none

/-- The first of the checks 2 to 6 of rule R179: the capacity check comes before `lengthCheck`. -/
def firstCheck (i : Instr) (n klen : Nat) : Option ErrorKind :=
  if Config.cap < n ∨ Config.cap < needOut i n then some .capacityExceeded else lengthCheck i n klen

theorem isMode_iff_mem_reporters (i : Instr) :
    i.isMode = true ↔ i ∈ ErrorKind.reporters .invalidKeyLength :=
  ⟨by cases i <;> decide, isMode_of_mem⟩

/-- An operation that passes the common checks completes with the answer of its own function (rule R78). -/
theorem State.execResult_eq_applyOp {s : State} {i : Instr}
    (hcap : ¬ (Config.cap < s.operandLen ∨ Config.cap < needOut i s.operandLen))
    (hkey : ¬ (i ∈ ErrorKind.reporters .invalidKeyLength ∧ s.keyLen.toNat ≠ 16)) :
    s.execResult i = s.applyOp i := by
  rw [s.execResult_eq_checked, State.checked, if_neg hcap]
  exact if_neg (mt (And.imp_left (isMode_iff_mem_reporters i).1) hkey)

/-- The first check that applies decides the result. -/
theorem State.execResult_of_firstCheck {s : State} {i : Instr} {K : ErrorKind}
    (h : firstCheck i s.operandLen s.keyLen.toNat = some K) : s.execResult i = .error K := by
  unfold firstCheck lengthCheck at h
  split_ifs at h with hcap hlen hkey hshort halign <;> obtain rfl := Option.some.inj h
  · rw [s.execResult_eq_checked]
    exact if_pos hcap
  · rcases hlen with ⟨rfl, hlen⟩ | ⟨rfl, hlen⟩ <;> rw [← operand_length] at hlen
    · exact (State.execResult_eq_applyOp hcap (nomatch ·.1)).trans (xorOp_of_invalid_length hlen)
    · exact (State.execResult_eq_applyOp hcap (nomatch ·.1)).trans (incOp_of_invalid_length hlen)
  · rw [s.execResult_eq_checked, State.checked, if_neg hcap]
    exact if_pos (hkey.imp_left (isMode_iff_mem_reporters i).2)
  · rw [State.execResult_eq_applyOp hcap hkey]
    rw [← operand_length] at hshort
    rcases hshort with ⟨rfl | rfl, hshort⟩
    · exact cbcDec_of_short _ _ hshort
    · exact ctrDec_of_short _ _ hshort
  · rw [State.execResult_eq_applyOp hcap hkey]
    rw [← operand_length] at hshort halign
    rcases halign with ⟨rfl, hbad⟩ | ⟨rfl | rfl, halign⟩
    · exact ecbDec_of_invalid_length _ _ hbad
    · exact cbcDec_of_unaligned _ _ (Nat.le_of_not_lt fun hlt => hshort ⟨.inl rfl, hlt⟩) halign
    · exact ctrDec_of_unaligned _ _ (Nat.le_of_not_lt fun hlt => hshort ⟨.inr rfl, hlt⟩) halign

theorem State.execResult_eq_applyOp_of_no_check {s : State} {i : Instr}
    (h : firstCheck i s.operandLen s.keyLen.toNat = none) : s.execResult i = s.applyOp i := by
  unfold firstCheck lengthCheck at h
  split_ifs at h with hcap _ hkey
  exact State.execResult_eq_applyOp hcap hkey

theorem answers_of_eq_unpad {r : Result} {d : Bytes} (h : r = unpad d) :
    (∃ out, r = .ok out) ∨ r = .error .invalidPadding :=
  h ▸ unpad_answers d

/-- When none of the checks 2 to 6 applies, only `unpad` can still report an error. -/
theorem State.execResult_of_no_check {s : State} {i : Instr}
    (h : firstCheck i s.operandLen s.keyLen.toNat = none) :
    (∃ out, s.execResult i = .ok out) ∨
      (i ∈ ErrorKind.reporters .invalidPadding ∧ s.execResult i = .error .invalidPadding) := by
  rw [State.execResult_eq_applyOp_of_no_check h]
  unfold firstCheck lengthCheck at h
  split_ifs at h with _ hlen _ hshort halign
  rw [← operand_length] at hlen hshort halign
  have hlong (hi : i = .cbcDec ∨ i = .ctrDec) : 32 ≤ s.operand.length :=
    Nat.le_of_not_lt fun hlt => hshort ⟨hi, hlt⟩
  have haligned (hi : i = .cbcDec ∨ i = .ctrDec) : s.operand.length % 16 = 0 :=
    not_not.1 fun hne => halign (.inr ⟨hi, hne⟩)
  cases i
  case pad => exact .inl ⟨_, rfl⟩
  case unpad => exact (unpad_answers s.operand).imp_right fun e => ⟨by decide, e⟩
  case xor => exact .inl ⟨_, if_neg fun hne => hlen (.inl ⟨rfl, hne⟩)⟩
  case inc => exact .inl ⟨_, if_neg fun hne => hlen (.inr ⟨rfl, hne⟩)⟩
  case ecbEnc => exact .inl ⟨_, ecbEnc_eq_flatMap ..⟩
  case cbcEnc => exact .inl ⟨_, cbcEnc_eq_flatMap ..⟩
  case ctrEnc => exact .inl ⟨_, ctrEnc_eq_flatMap ..⟩
  case ecbDec =>
    obtain ⟨h0, haligned⟩ := not_or.1 fun hbad => halign (.inl ⟨rfl, hbad⟩)
    exact (answers_of_eq_unpad (ecbDec_eq_unpad_flatMap _ _ h0 (not_not.1 haligned))).imp_right
      fun e => ⟨by decide, e⟩
  case cbcDec =>
    exact (answers_of_eq_unpad (cbcDec_eq_unpad_flatMap _ _ (hlong (.inl rfl)) (haligned (.inl rfl)))).imp_right
      fun e => ⟨by decide, e⟩
  case ctrDec =>
    exact (answers_of_eq_unpad (ctrDec_eq_unpad_flatMap _ _ (hlong (.inr rfl)) (haligned (.inr rfl)))).imp_right
      fun e => ⟨by decide, e⟩

section firstCheck
variable (u : State) {s : State} {i : Instr}

theorem State.complete_status_of_firstCheck {K : ErrorKind}
    (h : firstCheck i s.operandLen s.keyLen.toNat = some K) :
    (u.complete (s.execResult i)).status = statusError K :=
  (u.complete_status_eq_statusError_iff _ K).2 (State.execResult_of_firstCheck h)

theorem State.complete_status_of_no_check (h : firstCheck i s.operandLen s.keyLen.toNat = none) :
    (u.complete (s.execResult i)).status = statusDone ∨ (i ∈ ErrorKind.reporters .invalidPadding ∧
      (u.complete (s.execResult i)).status = statusError .invalidPadding) := by
  rcases State.execResult_of_no_check h with ⟨out, e⟩ | ⟨hi, e⟩
  · exact .inl (by rw [e]; rfl)
  · exact .inr ⟨hi, (u.complete_status_eq_statusError_iff _ _).2 e⟩

end firstCheck

/-- Settles O18: `firstCheck` is the order of the checks, and `STATUS` is that of the result it decides. -/
theorem checkPriority : Obligations.CheckPriority := by
  intro s t rest hbusy hnext hstep
  obtain ⟨u, hu⟩ := step_completes hbusy hnext
  obtain rfl := Host.Outcome.next.inj (hu.symm.trans hstep)
  cases hd : decode s.cmdLatch with
  | error e =>
    rw [s.resultOf_error hd]
    rfl
  | ok i =>
    rw [s.resultOf_ok hd]
    have hreport (K : ErrorKind) := State.complete_status_of_firstCheck u (s := s) (i := i) (K := K)
    have hpass := State.complete_status_of_no_check u (s := s) (i := i)
    unfold firstCheck lengthCheck State.operandLen at hreport hpass
    dsimp only
    split_ifs at hreport hpass ⊢
    on_goal 6 => exact hpass rfl
    all_goals exact hreport _ rfl

/-! ### The matrix (rule R186) -/

theorem mem_reporters_of_firstCheck {i : Instr} {n klen : Nat} {K : ErrorKind}
    (h : firstCheck i n klen = some K) : i ∈ K.reporters := by
  unfold firstCheck lengthCheck at h
  split_ifs at h with hcap hlen hkey hshort halign <;> obtain rfl := Option.some.inj h
  · cases i <;> decide
  · rcases hlen with ⟨rfl, _⟩ | ⟨rfl, _⟩ <;> decide
  · exact hkey.1
  · rcases hshort.1 with rfl | rfl <;> decide
  · rcases halign with ⟨rfl, _⟩ | ⟨rfl | rfl, _⟩ <;> decide

/-- Every blank of the matrix. -/
theorem mem_reporters_of_execResult {s : State} {i : Instr} {K : ErrorKind} (h : s.execResult i = .error K) :
    i ∈ K.reporters := by
  cases hcheck : firstCheck i s.operandLen s.keyLen.toNat with
  | some K' =>
    obtain rfl := Except.error.inj ((State.execResult_of_firstCheck hcheck).symm.trans h)
    exact mem_reporters_of_firstCheck hcheck
  | none =>
    rcases State.execResult_of_no_check hcheck with ⟨out, e⟩ | ⟨hi, e⟩
    · cases e.symm.trans h
    · obtain rfl := Except.error.inj (e.symm.trans h)
      exact hi

/-! ### States that reach an error kind: short operands, and one ciphertext without a padding -/

/-- The state after reset, with the operand `data` and `KEY_LEN = klen`. -/
def loadOperand (data : Bytes) (klen : Word) : State :=
  { State.reset with inLen := BitVec.ofNat 32 data.length, keyLen := klen, inBuf := Memory.ofBytes 0 data }

theorem loadOperand_operandLen {data : Bytes} (klen : Word) (h : data.length < 2 ^ 32) :
    (loadOperand data klen).operandLen = data.length :=
  (BitVec.toNat_ofNat ..).trans (Nat.mod_eq_of_lt h)

theorem loadOperand_operand {data : Bytes} (klen : Word) (h : data.length < 2 ^ 32) :
    (loadOperand data klen).operand = data := by
  refine List.ext_getElem ((operand_length _).trans (loadOperand_operandLen klen h)) fun j hj hj' => ?_
  rw [operand_getElem]
  exact (Memory.read_ofBytes data j).trans (List.getD_eq_getElem _ _ hj')

/-- An operand of at most 33 bytes and its result fit in `CAP` (rules R8, R80). -/
theorem firstCheck_of_le_33 (i : Instr) {n : Nat} (klen : Nat) (h : n ≤ 33) :
    firstCheck i n klen = lengthCheck i n klen := by
  have hneed : needOut i n ≤ 66 := by cases i <;> simp only [needOut, paddedLen] <;> omega
  have hcap := cap_aligned_and_large.2
  exact if_neg (by omega)

theorem firstCheck_loadOperand (i : Instr) {data : Bytes} (klen : Word) (h : data.length ≤ 33) :
    firstCheck i (loadOperand data klen).operandLen (loadOperand data klen).keyLen.toNat =
      lengthCheck i data.length klen.toNat := by
  rw [loadOperand_operandLen klen (by omega)]
  exact firstCheck_of_le_33 i klen.toNat h

/-- The block that no padded plaintext ends in. -/
def zeroBlock : Block := Vector.replicate 16 0

/-- No padding ends in a byte `0x00` (rule R102). -/
theorem unpad_append_zeroBlock (x : Bytes) : unpad (x ++ zeroBlock.toList) = .error .invalidPadding := by
  have hlast : (x ++ zeroBlock.toList).getLast? = some 0 := by
    rw [List.getLast?_append]
    rfl
  rw [unpad, hlast]
  rfl

theorem xorBlock_self (b : Block) : xorBlock b b = zeroBlock :=
  Vector.ext fun j hj => by simp [xorBlock, zeroBlock]

/-- Two blocks that each decrypting operation turns into a plaintext whose last block is `zeroBlock`, with the
key `key`: the first serves as IV and as nonce block. -/
def zeroPlainCiphertext (c : Cipher) (key : Key) : Bytes :=
  zeroBlock.toList ++ (c.enc zeroBlock key).toList

section zeroPlain
variable (c : Cipher) (key : Key)

theorem zeroPlainCiphertext_length : (zeroPlainCiphertext c key).length = 32 := by
  simp [zeroPlainCiphertext]

theorem bytesAt_zeroPlainCiphertext_first : bytesAt 16 (zeroPlainCiphertext c key) 0 = zeroBlock :=
  Vector.ext fun j hj => by simp [zeroPlainCiphertext, List.getElem?_append, hj]

theorem bytesAt_zeroPlainCiphertext_second :
    bytesAt 16 (zeroPlainCiphertext c key) 16 = c.enc zeroBlock key :=
  Vector.ext fun j hj => by simp [zeroPlainCiphertext, List.getElem?_append, hj]

/-- The first counter block of the operand is `zeroBlock` too. -/
theorem counterBlock_zeroPlainCiphertext :
    bytesAt 8 (zeroPlainCiphertext c key) 0 ++ be64inv 0 = zeroBlock := by
  have hlength : 0 + 8 ≤ (zeroPlainCiphertext c key).length := by simp [zeroPlainCiphertext]
  have hnonce : bytesAt 8 (zeroPlainCiphertext c key) 0 = Vector.replicate 8 0 :=
    Vector.toList_inj.1 ((bytesAt_toList hlength).trans rfl)
  rw [hnonce]
  decide

theorem ecbDec_zeroPlainCiphertext :
    ecbDec c (zeroPlainCiphertext c key) key = .error .invalidPadding := by
  have hlength := zeroPlainCiphertext_length c key
  rw [ecbDec_eq_unpad_flatMap c key (by omega) (by omega), hlength, show List.range (32 / 16) = [0, 1] from rfl]
  simp only [List.flatMap_cons, List.flatMap_nil, List.append_nil, Nat.mul_one]
  rw [bytesAt_zeroPlainCiphertext_second, c.dec_enc, unpad_append_zeroBlock]

theorem cbcDec_zeroPlainCiphertext :
    cbcDec c (zeroPlainCiphertext c key) key = .error .invalidPadding := by
  have hlength := zeroPlainCiphertext_length c key
  rw [cbcDec_eq_unpad_flatMap c key (by omega) (by omega), hlength,
    show List.range (32 / 16 - 1) = [0] from rfl, List.flatMap_singleton, bytesAt_zeroPlainCiphertext_second,
    Nat.mul_zero, bytesAt_zeroPlainCiphertext_first, c.dec_enc, xorBlock_self]
  exact unpad_append_zeroBlock []

theorem ctrDec_zeroPlainCiphertext :
    ctrDec c (zeroPlainCiphertext c key) key = .error .invalidPadding := by
  have hlength := zeroPlainCiphertext_length c key
  rw [ctrDec_eq_unpad_flatMap c key (by omega) (by omega), hlength,
    show List.range (32 / 16 - 1) = [0] from rfl, List.flatMap_singleton, bytesAt_zeroPlainCiphertext_second,
    counterBlock_zeroPlainCiphertext, xorBlock_self]
  exact unpad_append_zeroBlock []

end zeroPlain

/-- An operand that passes the checks, and on which the operation's own function reports an error. -/
theorem exists_execResult_of_applyOp {i : Instr} {K : ErrorKind} (data : Bytes) (hle : data.length ≤ 33)
    (hcheck : lengthCheck i data.length 16 = none) (happly : (loadOperand data 16).applyOp i = .error K) :
    ∃ s : State, s.execResult i = .error K :=
  ⟨_, (State.execResult_eq_applyOp_of_no_check ((firstCheck_loadOperand i 16 hle).trans hcheck)).trans happly⟩

theorem exists_execResult_of_decrypt {i : Instr} {K : ErrorKind} (f : Bytes → Key → Result)
    (happly : ∀ s : State, s.applyOp i = f s.operand s.key) (hcheck : lengthCheck i 32 16 = none)
    (hf : ∀ key, f (zeroPlainCiphertext Config.cipher key) key = .error K) :
    ∃ s : State, s.execResult i = .error K := by
  have hlength := zeroPlainCiphertext_length Config.cipher State.reset.key
  refine exists_execResult_of_applyOp (zeroPlainCiphertext Config.cipher State.reset.key) (by omega)
    (by rw [hlength, hcheck]) ?_
  rw [happly, loadOperand_operand 16 (by omega)]
  exact hf State.reset.key

/-- UNPAD reports the padding error on the empty operand, the decrypting operations on `zeroPlainCiphertext`. -/
theorem exists_execResult_invalidPadding {i : Instr} (h : i ∈ ErrorKind.reporters .invalidPadding) :
    ∃ s : State, s.execResult i = .error .invalidPadding := by
  simp only [ErrorKind.reporters, List.mem_cons, List.not_mem_nil, or_false] at h
  rcases h with rfl | rfl | rfl | rfl
  · exact exists_execResult_of_applyOp [] (by decide) rfl rfl
  · exact exists_execResult_of_decrypt _ (fun _ => rfl) rfl (ecbDec_zeroPlainCiphertext _)
  · exact exists_execResult_of_decrypt _ (fun _ => rfl) rfl (cbcDec_zeroPlainCiphertext _)
  · exact exists_execResult_of_decrypt _ (fun _ => rfl) rfl (ctrDec_zeroPlainCiphertext _)

/-- Every x of the matrix. -/
theorem exists_execResult_of_mem_reporters {i : Instr} {K : ErrorKind} (h : i ∈ K.reporters) :
    ∃ s : State, s.execResult i = .error K := by
  have hreach (data : Bytes) (klen : Word) (hle : data.length ≤ 33)
      (hcheck : lengthCheck i data.length klen.toNat = some K) : ∃ s : State, s.execResult i = .error K :=
    ⟨_, State.execResult_of_firstCheck ((firstCheck_loadOperand i klen hle).trans hcheck)⟩
  cases K
  case capacityExceeded =>
    have hcap : Config.cap + 1 < 2 ^ 32 := by unfold Config.cap; omega
    have hlength : (zeros (Config.cap + 1)).length = Config.cap + 1 := zeros_length _
    refine ⟨loadOperand (zeros (Config.cap + 1)) 16, State.execResult_of_firstCheck (if_pos (.inl ?_))⟩
    rw [loadOperand_operandLen _ (by omega), hlength]
    exact Nat.lt_succ_self _
  case invalidKeyLength =>
    have hcheck : ∀ i ∈ ErrorKind.reporters .invalidKeyLength, lengthCheck i 0 0 = some .invalidKeyLength := by
      decide
    exact hreach [] 0 (by decide) (hcheck i h)
  case invalidLength =>
    have hcheck : ∀ i ∈ ErrorKind.reporters .invalidLength, lengthCheck i 0 16 = some .invalidLength := by decide
    exact hreach [] 16 (by decide) (hcheck i h)
  case ciphertextTooShort =>
    have hcheck : ∀ i ∈ ErrorKind.reporters .ciphertextTooShort,
        lengthCheck i 0 16 = some .ciphertextTooShort := by decide
    exact hreach [] 16 (by decide) (hcheck i h)
  case invalidCiphertextLength =>
    have hcheck : ∀ i ∈ ErrorKind.reporters .invalidCiphertextLength,
        lengthCheck i 33 16 = some .invalidCiphertextLength := by decide
    exact hreach (zeros 33) 16 (by decide) (hcheck i h)
  case invalidPadding => exact exists_execResult_invalidPadding h
  case illegalOperation => cases h

/-! ### The matrix against the machine -/

/-- The matrix, read by its columns. -/
theorem exec_reports_iff (i : Instr) (K : ErrorKind) :
    (∃ s t, exec i s = .next t ∧ t.status = statusError K) ↔ i ∈ K.reporters := by
  constructor
  · rintro ⟨s, t, hexec, hstatus⟩
    obtain ⟨d, hd⟩ := exec_eq_complete i s
    obtain rfl := Host.Outcome.next.inj (hd.symm.trans hexec)
    exact mem_reporters_of_execResult ((State.complete_status_eq_statusError_iff _ _ K).1 hstatus)
  · intro h
    obtain ⟨s, hresult⟩ := exists_execResult_of_mem_reporters h
    obtain ⟨d, hd⟩ := exec_eq_complete i s
    exact ⟨s, _, hd, (State.complete_status_eq_statusError_iff _ _ K).2 hresult⟩

/-- Both reasons for which a word is reserved have a word (rule R73). -/
theorem exists_decode_error (e : DecodeError) : ∃ w, decode w = .error e := by
  cases e
  case zeroFieldNotZero => exact ⟨0x00000010, rfl⟩
  case reservedOp => exact ⟨0x00000000, rfl⟩

/-- Settles O17: the columns `reporters` hold the same pairs as the rows of rule R186; a reserved word has the
result `IllegalOperation`, and each kind of reserved word is completed from some state. -/
theorem errorMatrix : Obligations.ErrorMatrix := by
  refine ⟨fun i K => (exec_reports_iff i K).trans ?_, fun K e => ⟨?_, ?_⟩⟩
  · cases i <;> cases K <;> decide
  · rintro ⟨s, t, rest, hbusy, hnext, hd, hstep, hstatus⟩
    obtain ⟨u, hu⟩ := step_completes hbusy hnext
    obtain rfl := Host.Outcome.next.inj (hu.symm.trans hstep)
    rw [s.resultOf_error hd] at hstatus
    exact (statusError_injective hstatus).symm
  · rintro rfl
    obtain ⟨w, hw⟩ := exists_decode_error e
    have hbusy := State.accept_busy State.reset w
    have hnext : EngineMovesNext (State.reset.accept w).schedule [] := .inr ⟨rfl, rfl⟩
    exact ⟨_, _, [], hbusy, hnext, hw,
      (step_of_engineMovesNext hnext).trans (engineTurn_of_decode_error hbusy hw), rfl⟩

end Sys2Proof.Machine

/-! The invariant of the whole machine (rules R24, R27, R29, R50, R54, R187): completion, acceptance, the host's
accesses and reset each keep it, so every step and every run does. -/

namespace Sys2Proof.Machine

/-! ### Encoding (rules R70, R72) -/

/-- Settles O1: the encoder writes the row's word, and the row's mask covers the whole word. -/
theorem decodeInvertsEncode : Obligations.DecodeInvertsEncode :=
  fun w i _ => ⟨decode_encode i, encode_eq_matchWord i, decode_eq_ok_iff w i⟩

/-- Settles O2: each word is the encoder's. -/
theorem tableWordsDecode : Obligations.TableWordsDecode :=
  ⟨decode_encode .pad, decode_encode .inc, decode_encode .ecbDec, decode_encode .cbcEnc, decode_encode .ctrDec⟩

/-! ### The capacity (rules R8, R31) -/

theorem cap_le : Config.cap ≤ 2 ^ 31 := by
  unfold Config.cap
  omega

/-- A length within `CAP` is written as a 32-bit word without wrap. -/
theorem toNat_ofNat_of_le_cap {n : Nat} (h : n ≤ Config.cap) : (BitVec.ofNat 32 n).toNat = n :=
  (BitVec.toNat_ofNat ..).trans (Nat.mod_eq_of_lt (by have := cap_le; omega))

/-- Settles O30. -/
theorem capacityIsAdmissible : Obligations.CapacityIsAdmissible :=
  ⟨cap_aligned_and_large.1, cap_aligned_and_large.2, cap_le, fun _ => toNat_ofNat_of_le_cap le_rfl⟩

/-! ### What keeps the invariant -/

theorem statusLegal_statusError (K : ErrorKind) : statusLegal (statusError K) = true := by
  cases K <;> decide

/-- Settles O23. -/
theorem invHoldsAtReset : Obligations.InvHoldsAtReset where
  keyBuf_wf := rfl
  inBuf_wf := rfl
  outBuf_wf := rfl
  keyBuf_within := rfl
  inBuf_within := rfl
  outBuf_within := rfl
  outLen_le := Nat.zero_le _
  status_legal := rfl
  busy_outLen _ := rfl
  error_outLen _ := rfl

theorem Inv.with_draws {s : State} (h : Inv s) (d : Nat) : Inv { s with draws := d } :=
  { h with }

theorem Inv.resetEvent (s : State) : Inv s.resetEvent :=
  { invHoldsAtReset with }

theorem Inv.accept {s : State} (h : Inv s) (w : Word) : Inv (s.accept w) :=
  { h with
    outBuf_wf := rfl
    outBuf_within := rfl
    outLen_le := Nat.zero_le _
    status_legal := rfl
    busy_outLen := fun _ => rfl
    error_outLen := fun _ => rfl }

/-- A completion with an error leaves an empty result. -/
theorem Inv.completeErr {s : State} (h : Inv s) (K : ErrorKind) : Inv (s.completeErr K) :=
  { h with
    outBuf_wf := rfl
    outBuf_within := rfl
    outLen_le := Nat.zero_le _
    status_legal := statusLegal_statusError K
    busy_outLen := fun _ => rfl
    error_outLen := fun _ => rfl }

/-- A completion with a result that fits `OUT` leaves exactly that result. -/
theorem Inv.completeOk {s : State} (h : Inv s) {out : Bytes} (hfit : out.length ≤ Config.cap) :
    Inv (s.completeOk out) := by
  have hlen : (s.completeOk out).outLen.toNat = out.length := toNat_ofNat_of_le_cap hfit
  exact
    { h with
      outBuf_wf := Memory.wf_ofBytes out
      outBuf_within := hlen ▸ Memory.within_ofBytes out
      outLen_le := hlen ▸ hfit
      status_legal := rfl
      busy_outLen := fun hbusy => absurd hbusy (Bool.eq_false_iff.1 (s.completeOk_busy out))
      error_outLen := fun herror => absurd herror (Bool.eq_false_iff.1 (s.completeOk_error out)) }

theorem Inv.complete {s : State} (h : Inv s) {r : Result} (hfit : ∀ out, r = .ok out → out.length ≤ Config.cap) :
    Inv (s.complete r) := by
  cases r with
  | ok out => exact h.completeOk (hfit out rfl)
  | error K => exact h.completeErr K

theorem Inv.regWrite {s : State} (h : Inv s) (r : Nat) (v : Word) : Inv (s.regWrite r v) := by
  rcases s.regWrite_cases r v with e | ⟨_, _, e⟩ | ⟨_, _, e⟩ | ⟨_, _, e⟩ <;> rw [e]
  · exact h
  · exact h.accept v
  · exact { h with }
  · exact { h with }

theorem Inv.bufWrite {s : State} (h : Inv s) (sp : Space) (i : Nat) (b : Byte) : Inv (s.bufWrite sp i b) := by
  rcases s.bufWrite_cases sp i b with e | ⟨_, _, hi, e⟩ | ⟨_, _, hi, e⟩ <;> rw [e]
  · exact h
  · exact { h with
      keyBuf_wf := Memory.wf_write i b h.keyBuf_wf
      keyBuf_within := Memory.within_write b h.keyBuf_within (Nat.lt_succ_of_le hi) }
  · exact { h with
      inBuf_wf := Memory.wf_write i b h.inBuf_wf
      inBuf_within := Memory.within_write b h.inBuf_within ((le_cap_sub_one_iff i).1 hi) }

theorem Inv.access {s : State} (h : Inv s) (a : Access) : Inv (s.access a) := by
  cases a with
  | regRead r => exact { h with }
  | regWrite r v => exact h.regWrite r v
  | bufRead sp i => exact { h with }
  | bufWrite sp i b => exact h.bufWrite sp i b

/-- The engine's turn completes an operation with a result that fits `OUT`, or changes nothing. -/
theorem Inv.engineTurn {s : State} (h : Inv s) : ∃ t, engineTurn s = .next t ∧ Inv t := by
  cases hbusy : s.busy with
  | false =>
    rcases engineTurn_cases s with ⟨_, e⟩ | ⟨hb, _⟩ | ⟨hb, _⟩
    · exact ⟨s, e, h⟩
    all_goals exact absurd hb (Bool.eq_false_iff.1 hbusy)
  | true =>
    obtain ⟨d, e⟩ := engineTurn_of_busy hbusy
    refine ⟨_, e, (h.with_draws d).complete fun out hout => ?_⟩
    rw [← s.specResult_eq_resultOf] at hout
    exact State.specResult_length_le_cap hout

/-- Every step from a state that meets the invariant is safe. -/
theorem Inv.safeStep {s : State} (h : Inv s) : SafeStep s := by
  unfold SafeStep
  rcases step_cases s with ⟨_, e⟩ | ⟨a, rest, _, e⟩ | ⟨rest, _, e⟩ | ⟨rest, _, e⟩ <;> rw [e]
  · exact h.engineTurn
  · exact ⟨_, rfl, (h.with_schedule rest).access a⟩
  · exact (h.with_schedule rest).engineTurn
  · exact ⟨_, rfl, Inv.resetEvent _⟩

/-- Settles O24. -/
theorem stepKeepsInv : Obligations.StepKeepsInv := by
  intro s t hinv hstep
  obtain ⟨t', hstep', ht'⟩ := hinv.safeStep
  obtain rfl := Host.Outcome.next.inj (hstep'.symm.trans hstep)
  exact ht'

/-- Settles O25, by induction on the number of steps. -/
theorem everyRunIsSafe : Obligations.EveryRunIsSafe := by
  intro k
  induction k with
  | zero => exact fun s hinv => ⟨s, rfl, hinv⟩
  | succ k ih =>
    intro s hinv
    obtain ⟨t, hstep, ht⟩ := hinv.safeStep
    obtain ⟨u, hrun, hu⟩ := ih t ht
    exact ⟨u, (run_next k hstep).trans hrun, hu⟩

end Sys2Proof.Machine

/-! The host's reads, and what the host does while an operation is in progress (rules R52, R54, R58, R216); what a
completion lets the host read (rules R79, R170); reset (rules R200 to R202). -/

namespace Sys2Proof.Machine

/-! ### Reads (rules R52, R54) -/

/-- `RegRead(r)` as the chain of conditions of rule R52. -/
theorem State.regRead_eq (s : State) (r : Nat) :
    s.regRead r = if r = 0 then 0 else if r = 1 then s.status else if r = 2 then s.inLen
      else if r = 3 then s.outLen else if r = 4 then s.keyLen
      else if r = 5 then BitVec.ofNat 32 Config.cap else 0 := by
  unfold State.regRead
  split
  case h_7 h0 h1 h2 h3 h4 h5 => rw [if_neg h0, if_neg h1, if_neg h2, if_neg h3, if_neg h4, if_neg h5]
  all_goals rfl

/-- Settles O4: a read is recorded, and changes nothing else. -/
theorem regReadReturnsValue : Obligations.RegReadReturnsValue := by
  refine ⟨fun s r rest h => ?_, fun s sp i rest h => ⟨_, step_host h⟩⟩
  rw [step_host h, State.access, State.regRead_eq]

theorem State.bufRead_of_lt {s : State} {sp : Space} {i : Nat} (h : i < sp.size) :
    s.bufRead sp i = (s.buf sp).read i := if_pos h

theorem State.bufRead_of_size_le {s : State} {sp : Space} {i : Nat} (h : sp.size ≤ i) : s.bufRead sp i = 0 :=
  if_neg (Nat.not_lt.2 h)

/-- Nothing of `OUT` is visible at or beyond `OUT_LEN`. -/
theorem Inv.bufRead_out_of_le {s : State} (h : Inv s) {i : Nat} (hi : s.outLen.toNat ≤ i) :
    s.bufRead .out i = 0 := by
  have hread : (s.buf .out).read i = 0 := Memory.read_of_within h.outBuf_within hi
  rw [State.bufRead, hread, ite_self]

/-- `OUT_LEN` is at most every index that rule R54 makes read `0x00`. -/
theorem Inv.outLen_le_of_hidden {s : State} (h : Inv s) {i : Nat}
    (hi : s.outLen.toNat ≤ i ∨ s.busy = true ∨ s.error = true) : s.outLen.toNat ≤ i := by
  rcases hi with hi | hbusy | herror
  · exact hi
  · rw [h.busy_outLen hbusy]
    exact Nat.zero_le i
  · rw [h.error_outLen herror]
    exact Nat.zero_le i

/-- Settles O6: the invariant has `OUT_LEN = 0` while busy and after an error. -/
theorem bufReadReturnsByte : Obligations.BufReadReturnsByte := by
  intro s sp i rest hinv h
  refine ⟨s.bufRead sp i, step_host h, State.bufRead_of_lt, State.bufRead_of_size_le, ?_⟩
  rintro rfl hi
  exact hinv.bufRead_out_of_le (hinv.outLen_le_of_hidden hi)

/-! ### Accesses while busy (rule R58) -/

/-- The accesses that hand a value to the host. -/
def Access.isRead : Access → Bool
  | .regRead _ => true
  | .bufRead _ _ => true
  | .regWrite _ _ => false
  | .bufWrite _ _ _ => false

/-- While busy an access adds one reply when it is a read, and none when it is a write. -/
theorem State.access_of_busy_replies {s : State} (h : s.busy = true) (a : Access) :
    ∃ rs, s.access a = { s with replies := rs ++ s.replies } ∧ rs.length = ([a].filter Access.isRead).length := by
  cases a with
  | regRead r => exact ⟨[_], rfl, rfl⟩
  | bufRead sp i => exact ⟨[_], rfl, rfl⟩
  | regWrite r v => exact ⟨[], State.regWrite_of_busy h r v, rfl⟩
  | bufWrite sp i b => exact ⟨[], State.bufWrite_of_busy h sp i b, rfl⟩

/-- While busy a run of host accesses adds one reply for each read and changes nothing else of the engine. -/
theorem run_accesses_of_busy_replies (accesses : List Access) {s : State} {rest : List Event}
    (hbusy : s.busy = true) (h : s.schedule = accesses.map Event.host ++ rest) :
    ∃ rs, Host.Core.run Sys2Proof.core accesses.length s =
        .next { s with schedule := rest, replies := rs ++ s.replies } ∧
      rs.length = (accesses.filter Access.isRead).length := by
  induction accesses generalizing s with
  | nil =>
    have hs : s.schedule = rest := h
    subst hs
    exact ⟨[], rfl, rfl⟩
  | cons a accesses ih =>
    obtain ⟨rs, ha, hlen⟩ := State.access_of_busy_replies
      (s := { s with schedule := accesses.map Event.host ++ rest }) hbusy a
    obtain ⟨rs', hrun, hlen'⟩ := ih
      (s := { s with schedule := accesses.map Event.host ++ rest, replies := rs ++ s.replies }) hbusy rfl
    refine ⟨rs' ++ rs, ?_, ?_⟩
    · rw [List.length_cons, run_next _ ((step_host h).trans (congrArg _ ha)), List.append_assoc]
      exact hrun
    · rw [List.length_append, hlen, hlen', Nat.add_comm, ← List.length_append, ← List.filter_append]
      rfl

/-- Settles O8. -/
theorem accessesWhileBusyChangeNothing : Obligations.AccessesWhileBusyChangeNothing := by
  intro accesses s rest hbusy h
  exact run_accesses_of_busy_replies accesses hbusy h

/-! ### The engine's turn comes (rules R79, R216) -/

/-- A scheduled reset is the next step (rules R63, R200). -/
theorem step_reset {s : State} {rest : List Event} (h : s.schedule = .reset :: rest) :
    step s = .next { s with schedule := rest }.resetEvent := by
  unfold step nextEvent
  rw [h]
  rfl

/-- A run of at most `n` steps from `s` ends with the engine idle. -/
def IdleWithin (n : Nat) (s : State) : Prop :=
  ∃ k, k ≤ n ∧ ∃ t, Host.Core.run Sys2Proof.core k s = .next t ∧ t.busy = false

theorem IdleWithin.of_idle {s : State} (n : Nat) (h : s.busy = false) : IdleWithin n s :=
  ⟨0, n.zero_le, s, rfl, h⟩

theorem IdleWithin.of_step {s t : State} {n : Nat} (hstep : step s = .next t) (h : IdleWithin n t) :
    IdleWithin (n + 1) s := by
  obtain ⟨k, hk, u, hrun, hu⟩ := h
  exact ⟨k + 1, Nat.succ_le_succ hk, u, (run_next k hstep).trans hrun, hu⟩

/-- The engine's step on an operation in progress ends it. -/
theorem idleWithin_of_engineMovesNext {s : State} {rest : List Event} (n : Nat) (hbusy : s.busy = true)
    (hnext : EngineMovesNext s.schedule rest) : IdleWithin (n + 1) s := by
  obtain ⟨u, hu⟩ := step_completes hbusy hnext
  exact .of_step hu (.of_idle n (State.complete_busy u _))

/-- By induction on the events scheduled: an access leaves the engine busy, a reset and the engine's own step do
not. -/
theorem idleWithin_of_busy (events : List Event) {s : State} (hbusy : s.busy = true) (h : s.schedule = events) :
    IdleWithin (events.length + 1) s := by
  induction events generalizing s with
  | nil => exact idleWithin_of_engineMovesNext _ hbusy (.inr ⟨h, rfl⟩)
  | cons e rest ih =>
    cases e with
    | engine => exact idleWithin_of_engineMovesNext _ hbusy (.inl h)
    | reset => exact .of_step (step_reset h) (.of_idle _ (State.resetEvent_busy _))
    | host a =>
      obtain ⟨rs, ha⟩ := State.access_of_busy (s := { s with schedule := rest }) hbusy a
      exact .of_step ((step_host h).trans (congrArg _ ha)) (ih hbusy rfl)

/-- Settles O26. -/
theorem busyEventuallyClears : Obligations.BusyEventuallyClears :=
  fun _ hbusy => idleWithin_of_busy _ hbusy rfl

theorem decode_of_decodeTableWord {nbits w : Nat} {i : Instr} (h : decodeTableWord nbits w = some i) :
    decode (BitVec.ofNat 32 (tableWord nbits w)) = .ok i := by
  unfold decodeTableWord at h
  split at h
  · cases hd : decode (BitVec.ofNat 32 (tableWord nbits w)) with
    | ok i' =>
      rw [hd] at h
      exact congrArg _ (Option.some.inj h)
    | error e =>
      rw [hd] at h
      cases h
  · cases h

/-- Settles O10: both ways in which the engine moves next, and the word that `withFetchWord` latches. -/
theorem stepRunsDecodedInstruction : Obligations.StepRunsDecodedInstruction := by
  refine ⟨fun s i hbusy hd => ⟨fun h => ?_, fun rest h => ?_⟩, fun s nbits w i h => ?_⟩
  · rw [step_of_engineMovesNext (rest := []) (.inr ⟨h, rfl⟩), ← h]
    exact engineTurn_of_decode hbusy hd
  · rw [step_of_engineMovesNext (.inl h)]
    exact engineTurn_of_decode (s := { s with schedule := rest }) hbusy hd
  · exact engineTurn_of_decode (s := s.withFetchWord nbits w) (State.accept_busy s (.ofNat 32 (tableWord nbits w)))
      (decode_of_decodeTableWord h)

/-! ### What a completion lets the host read (rules R79, R170) -/

/-- Settles O12. -/
theorem completedResultReadsBack : Obligations.CompletedResultReadsBack := by
  intro s out hfit
  have hread (j : Nat) : (Memory.ofBytes 0 out).read j = out.getD j 0 := Memory.read_ofBytes out j
  refine ⟨toNat_ofNat_of_le_cap hfit, rfl, fun j hj => ?_, fun j hj => ?_⟩
  · have hbyte := (hread j).trans (List.getD_eq_getElem _ _ hj)
    exact (State.bufRead_of_lt (sp := .out) (hj.trans_le hfit)).trans hbyte
  · show ite _ ((Memory.ofBytes 0 out).read j) 0 = 0
    rw [hread, List.getD_eq_default _ _ hj, ite_self]

/-- Settles O29. -/
theorem errorStatusWords : Obligations.ErrorStatusWords := fun _ => rfl

/-- Settles O27. -/
theorem resetClearsEverything : Obligations.ResetClearsEverything := fun _ _ h => step_reset h

end Sys2Proof.Machine

/-! The frames: what an operation changes, what each step of the whole machine can change (sections 4 and 7 of
`10_state.md`), and the length of every operation's result (rule R76). -/

namespace Sys2Proof.Machine

/-! ### The frame of an operation -/

/-- Settles O14: a completion changes `STATUS`, `OUT_LEN` and `OUT`, and counts the draw of a CBC_ENC or CTR_ENC
whose result is `Ok`, which `STATUS` tells. -/
theorem execFrame : Obligations.ExecFrame := by
  intro i s t hexec
  obtain rfl := Host.Outcome.next.inj ((exec_eq_commit i s).symm.trans hexec)
  have hkey := State.complete_keyBuf { s with draws := s.drawsAfter i (s.execResult i) } (s.execResult i)
  have hinp := State.complete_inBuf { s with draws := s.drawsAfter i (s.execResult i) } (s.execResult i)
  refine ⟨fun j => ?_, fun j => ?_, hkey, hinp, State.complete_inLen _ _, State.complete_keyLen _ _,
    State.complete_cmdLatch _ _, State.complete_schedule _ _, State.complete_replies _ _, ?_⟩
  · simp only [State.bufRead, State.buf, hkey]
  · simp only [State.bufRead, State.buf, hinp]
  · rw [State.complete_draws]
    cases s.execResult i with
    | ok out => exact if_congr (and_iff_left rfl).symm rfl rfl
    | error K => exact (if_neg fun h => statusDone_ne_statusError K h.2.symm).symm

/-! ### What each step can change -/

/-- All that a step can do, with the two ways in which the engine moves next taken together. -/
theorem step_cases_agents (s : State) :
    (∃ rest, EngineMovesNext s.schedule rest ∧ step s = engineTurn { s with schedule := rest }) ∨
    (∃ a rest, s.schedule = .host a :: rest ∧ step s = .next ({ s with schedule := rest }.access a)) ∨
    (∃ rest, s.schedule = .reset :: rest) := by
  rcases step_cases s with ⟨h, _⟩ | h | ⟨rest, h, e⟩ | ⟨rest, h, _⟩
  · exact .inl ⟨[], .inr ⟨h, rfl⟩, step_of_engineMovesNext (.inr ⟨h, rfl⟩)⟩
  · exact .inr (.inl h)
  · exact .inl ⟨rest, .inl h, e⟩
  · exact .inr (.inr ⟨rest, h⟩)

/-- All that an access can do (rules R52 to R55): record a reply or nothing, or, when the engine is idle, have the
effect of its write. -/
theorem State.access_cases (s : State) (a : Access) :
    (∃ rs, s.access a = { s with replies := rs }) ∨
    (s.busy = false ∧
      ((∃ w, a = .regWrite 0 w ∧ s.access a = s.accept w) ∨
      (∃ v, a = .regWrite 2 v ∧ s.access a = { s with inLen := v }) ∨
      (∃ v, a = .regWrite 4 v ∧ s.access a = { s with keyLen := v }) ∨
      (∃ i b, a = .bufWrite .inp i b ∧ i < Config.cap ∧ s.access a = { s with inBuf := s.inBuf.write i b }) ∨
      (∃ i b, a = .bufWrite .key i b ∧ i < 16 ∧ s.access a = { s with keyBuf := s.keyBuf.write i b }))) := by
  cases a with
  | regRead r => exact .inl ⟨_, rfl⟩
  | bufRead sp i => exact .inl ⟨_, rfl⟩
  | regWrite r v =>
    rcases s.regWrite_cases r v with e | ⟨hidle, rfl, e⟩ | ⟨hidle, rfl, e⟩ | ⟨hidle, rfl, e⟩
    · exact .inl ⟨s.replies, e⟩
    · exact .inr ⟨hidle, .inl ⟨v, rfl, e⟩⟩
    · exact .inr ⟨hidle, .inr (.inl ⟨v, rfl, e⟩)⟩
    · exact .inr ⟨hidle, .inr (.inr (.inl ⟨v, rfl, e⟩))⟩
  | bufWrite sp i b =>
    rcases s.bufWrite_cases sp i b with e | ⟨hidle, rfl, hi, e⟩ | ⟨hidle, rfl, hi, e⟩
    · exact .inl ⟨s.replies, e⟩
    · exact .inr ⟨hidle, .inr (.inr (.inr (.inr ⟨i, b, rfl, Nat.lt_succ_of_le hi, e⟩)))⟩
    · exact .inr ⟨hidle, .inr (.inr (.inr (.inl ⟨i, b, rfl, (le_cap_sub_one_iff i).1 hi, e⟩)))⟩

/-- The two ways in which the next step is the engine's (assumption log 4). -/
theorem engineMovesNext_iff {events : List Event} :
    (∃ rest, EngineMovesNext events rest) ↔ events = [] ∨ ∃ rest, events = .engine :: rest := by
  constructor
  · rintro ⟨rest, h | ⟨h, _⟩⟩
    · exact .inr ⟨rest, h⟩
    · exact .inl h
  · rintro (h | ⟨rest, h⟩)
    · exact ⟨[], .inr ⟨h, rfl⟩⟩
    · exact ⟨rest, .inl h⟩

theorem engineTurn_of_idle {s : State} (hidle : s.busy = false) : engineTurn s = .next s := by
  unfold engineTurn
  rw [hidle, if_neg Bool.false_ne_true]

/-- What acceptance and completion set: `STATUS`, `OUT_LEN`, `OUT` and the latch. -/
def State.resultState (s : State) : Word × Word × Memory × Word :=
  (s.status, s.outLen, s.outBuf, s.cmdLatch)

/-- An access that leaves the result state different is an accepted command. -/
theorem State.access_changes_resultState {s : State} {a : Access}
    (h : (s.access a).resultState ≠ s.resultState) : s.busy = false ∧ ∃ w, a = .regWrite 0 w := by
  rcases s.access_cases a with ⟨_, e⟩ |
    ⟨hidle, ⟨w, rfl, _⟩ | ⟨_, _, e⟩ | ⟨_, _, e⟩ | ⟨_, _, _, _, e⟩ | ⟨_, _, _, _, e⟩⟩
  case inr.inl => exact ⟨hidle, w, rfl⟩
  all_goals exact absurd (congrArg State.resultState e) h

/-- Settles O21. -/
theorem resultStateChangesOnlyByCommandCompletionReset :
    Obligations.ResultStateChangesOnlyByCommandCompletionReset := by
  intro s t hstep hfields
  have hchange : t.resultState ≠ s.resultState := by
    simp only [State.resultState, ne_eq, Prod.mk.injEq, not_and_or]
    exact hfields
  rcases step_cases_agents s with ⟨rest, hnext, e⟩ | ⟨a, rest, hsched, e⟩ | hreset
  · cases hbusy : s.busy with
    | true => exact .inr (.inl ⟨rfl, engineMovesNext_iff.1 ⟨rest, hnext⟩⟩)
    | false =>
      rw [engineTurn_of_idle (s := { s with schedule := rest }) hbusy] at e
      obtain rfl := Host.Outcome.next.inj (e.symm.trans hstep)
      exact absurd rfl hchange
  · obtain rfl := Host.Outcome.next.inj (e.symm.trans hstep)
    obtain ⟨hidle, w, rfl⟩ := State.access_changes_resultState (s := { s with schedule := rest }) hchange
    exact .inl ⟨w, rest, hsched, hidle⟩
  · exact .inr (.inr hreset)

/-- The engine's turn leaves the operand, the key and their lengths. -/
theorem engineTurn_operand_eq {s t : State} (h : engineTurn s = .next t) :
    t.inLen = s.inLen ∧ t.keyLen = s.keyLen ∧ t.inBuf = s.inBuf ∧ t.keyBuf = s.keyBuf := by
  cases hbusy : s.busy with
  | false =>
    obtain rfl := Host.Outcome.next.inj ((engineTurn_of_idle hbusy).symm.trans h)
    exact ⟨rfl, rfl, rfl, rfl⟩
  | true =>
    obtain ⟨d, hd⟩ := engineTurn_of_busy hbusy
    obtain rfl := Host.Outcome.next.inj (hd.symm.trans h)
    exact ⟨State.complete_inLen _ _, State.complete_keyLen _ _, State.complete_inBuf _ _, State.complete_keyBuf _ _⟩

/-- Settles O22. -/
theorem operandStateChangesOnlyByHostOrReset : Obligations.OperandStateChangesOnlyByHostOrReset := by
  intro s t hstep hreset
  rcases step_cases_agents s with ⟨rest, _, e⟩ | ⟨a, rest, hsched, e⟩ | ⟨rest, hsched⟩
  · obtain ⟨hinLen, hkeyLen, hinBuf, hkeyBuf⟩ := engineTurn_operand_eq (e.symm.trans hstep)
    exact ⟨absurd hinLen, absurd hkeyLen, absurd hinBuf, absurd hkeyBuf⟩
  · obtain rfl := Host.Outcome.next.inj (e.symm.trans hstep)
    rcases { s with schedule := rest }.access_cases a with ⟨_, e⟩ |
      ⟨hidle, ⟨w, rfl, e⟩ | ⟨v, rfl, e⟩ | ⟨v, rfl, e⟩ | ⟨i, b, rfl, hi, e⟩ | ⟨i, b, rfl, hi, e⟩⟩ <;> rw [e]
    · exact ⟨absurd rfl, absurd rfl, absurd rfl, absurd rfl⟩
    · exact ⟨absurd rfl, absurd rfl, absurd rfl, absurd rfl⟩
    · exact ⟨fun _ => ⟨v, rest, hsched, hidle⟩, absurd rfl, absurd rfl, absurd rfl⟩
    · exact ⟨absurd rfl, fun _ => ⟨v, rest, hsched, hidle⟩, absurd rfl, absurd rfl⟩
    · exact ⟨absurd rfl, absurd rfl, fun _ => ⟨i, b, rest, hsched, hidle, hi⟩, absurd rfl⟩
    · exact ⟨absurd rfl, absurd rfl, absurd rfl, fun _ => ⟨i, b, rest, hsched, hidle, hi⟩⟩
  · exact absurd hsched (hreset rest)

/-! ### The length of a result (rule R76) -/

/-- `unpad` removes 1 to 16 bytes. -/
theorem unpad_length {d y : Bytes} (h : unpad d = .ok y) : ∃ k, 1 ≤ k ∧ k ≤ 16 ∧ y.length + k = d.length := by
  obtain ⟨k, hpos, hle, rfl⟩ := eq_append_replicate_of_unpad h
  exact ⟨k, hpos, hle, by rw [List.length_append, List.length_replicate]⟩

/-- A sequence of `m` blocks holds `16 m` bytes. -/
theorem flatMap_toList_length (f : Nat → Block) (m : Nat) :
    ((List.range m).flatMap fun i => (f i).toList).length = 16 * m := by
  rw [← ungroup_map_range, ungroup_length, List.length_map, List.length_range]

section lengths
variable {c : Cipher} {d x y : Bytes} {key : Key}

theorem xorOp_length (h : xorOp d = .ok y) : y.length = 16 := by
  unfold xorOp at h
  split at h <;> cases h
  exact Vector.length_toList

theorem incOp_length (h : incOp d = .ok y) : y.length = 8 := by
  unfold incOp at h
  split at h <;> cases h
  exact Vector.length_toList

theorem ecbEnc_length (h : ecbEnc c x key = .ok y) : y.length = paddedLen x.length := by
  obtain rfl := Except.ok.inj ((ecbEnc_eq_flatMap c x key).symm.trans h)
  rw [flatMap_toList_length fun j => c.enc (bytesAt 16 (pad x) (16 * j)) key, paddedLen]
  omega

theorem cbcEnc_length {iv : Block} (h : cbcEnc c x key iv = .ok y) : y.length = paddedLen x.length + 16 := by
  obtain rfl := Except.ok.inj ((cbcEnc_eq_flatMap c x key iv).symm.trans h)
  rw [iv_append_blocks_length, paddedLen]
  omega

theorem ctrEnc_length {nonce : Half} (h : ctrEnc c x key nonce = .ok y) :
    y.length = paddedLen x.length + 16 := by
  obtain rfl := Except.ok.inj ((ctrEnc_eq_flatMap c x key nonce).symm.trans h)
  rw [nonceBlock_append_blocks_length nonce fun i =>
    xorBlock (bytesAt 16 (pad x) (16 * i)) (c.enc (nonce ++ be64inv i) key), paddedLen]
  omega

/-- An operand that ECB_DEC decrypts is a positive number of whole blocks. -/
theorem ecbDec_ok_aligned (h : ecbDec c d key = .ok y) : d.length ≠ 0 ∧ d.length % 16 = 0 := by
  by_contra hbad
  rw [ecbDec_of_invalid_length c key (by omega)] at h
  cases h

/-- An operand that CBC_DEC decrypts is at least two whole blocks. -/
theorem cbcDec_ok_aligned (h : cbcDec c d key = .ok y) : 32 ≤ d.length ∧ d.length % 16 = 0 := by
  rcases Nat.lt_or_ge d.length 32 with hshort | hlong
  · rw [cbcDec_of_short c key hshort] at h
    cases h
  · refine ⟨hlong, by_contra fun hbad => ?_⟩
    rw [cbcDec_of_unaligned c key hlong hbad] at h
    cases h

/-- An operand that CTR_DEC decrypts is at least two whole blocks. -/
theorem ctrDec_ok_aligned (h : ctrDec c d key = .ok y) : 32 ≤ d.length ∧ d.length % 16 = 0 := by
  rcases Nat.lt_or_ge d.length 32 with hshort | hlong
  · rw [ctrDec_of_short c key hshort] at h
    cases h
  · refine ⟨hlong, by_contra fun hbad => ?_⟩
    rw [ctrDec_of_unaligned c key hlong hbad] at h
    cases h

theorem ecbDec_length (h : ecbDec c d key = .ok y) : ∃ k, 1 ≤ k ∧ k ≤ 16 ∧ y.length + k = d.length := by
  obtain ⟨h0, haligned⟩ := ecbDec_ok_aligned h
  rw [ecbDec_eq_unpad_flatMap c key h0 haligned] at h
  obtain ⟨k, hpos, hle, hlen⟩ := unpad_length h
  rw [flatMap_toList_length fun j => c.dec (bytesAt 16 d (16 * j)) key] at hlen
  exact ⟨k, hpos, hle, by omega⟩

theorem cbcDec_length (h : cbcDec c d key = .ok y) : ∃ k, 1 ≤ k ∧ k ≤ 16 ∧ y.length + 16 + k = d.length := by
  obtain ⟨hlong, haligned⟩ := cbcDec_ok_aligned h
  rw [cbcDec_eq_unpad_flatMap c key hlong haligned] at h
  obtain ⟨k, hpos, hle, hlen⟩ := unpad_length h
  rw [flatMap_toList_length fun i => xorBlock (c.dec (bytesAt 16 d (16 * (i + 1))) key) (bytesAt 16 d (16 * i))]
    at hlen
  exact ⟨k, hpos, hle, by omega⟩

theorem ctrDec_length (h : ctrDec c d key = .ok y) : ∃ k, 1 ≤ k ∧ k ≤ 16 ∧ y.length + 16 + k = d.length := by
  obtain ⟨hlong, haligned⟩ := ctrDec_ok_aligned h
  rw [ctrDec_eq_unpad_flatMap c key hlong haligned] at h
  obtain ⟨k, hpos, hle, hlen⟩ := unpad_length h
  rw [flatMap_toList_length fun i =>
    xorBlock (bytesAt 16 d (16 * (i + 1))) (c.enc (bytesAt 8 d 0 ++ be64inv i) key)] at hlen
  exact ⟨k, hpos, hle, by omega⟩

end lengths

/-- A successful operation has passed the common checks, and its result is its function's. -/
theorem State.passed_of_execResult_ok {s : State} {i : Instr} {out : Bytes} (h : s.execResult i = .ok out) :
    exceedsCap Config.cap i s.operandLen = false ∧ (i.isMode = true → s.keyLen = 16) ∧ s.applyOp i = .ok out := by
  rw [s.execResult_eq_checked] at h
  cases hfit : exceedsCap Config.cap i s.operandLen with
  | true =>
    rw [State.checked_of_exceedsCap hfit] at h
    cases h
  | false =>
    rw [State.checked_of_fits hfit] at h
    split at h
    · cases h
    · next hkey =>
      exact ⟨rfl, fun hmode => by_contra fun hne => hkey ⟨hmode, (keyLen_toNat_ne_iff _).2 hne⟩, h⟩

theorem State.execResult_length_le_cap {s : State} {i : Instr} {out : Bytes} (h : s.execResult i = .ok out) :
    out.length ≤ Config.cap := by
  rw [s.execResult_eq_checked] at h
  exact State.length_le_cap_of_checked (s.applyOp_within i) h

/-- `STATUS` after a successful operation tells that its result is `Ok`; `OUT` holds it. -/
theorem exec_ok {i : Instr} {s t : State} (hexec : exec i s = .next t) (hstatus : t.status = statusDone) :
    ∃ out, s.execResult i = .ok out ∧ t.outLen.toNat = out.length ∧ t.outBuf = Memory.ofBytes 0 out := by
  obtain ⟨d, hd⟩ := exec_eq_complete i s
  obtain rfl := Host.Outcome.next.inj (hd.symm.trans hexec)
  cases hr : s.execResult i with
  | ok out => exact ⟨out, rfl, toNat_ofNat_of_le_cap (State.execResult_length_le_cap hr), rfl⟩
  | error K =>
    rw [hr] at hstatus
    exact absurd hstatus.symm (statusDone_ne_statusError K)

/-- Settles O20: `OUT_LEN` is the length of the answer of the operation's own function. -/
theorem resultLengths : Obligations.ResultLengths := by
  intro i s t hexec hstatus
  obtain ⟨out, hr, hlen, _⟩ := exec_ok hexec hstatus
  obtain ⟨_, _, happly⟩ := State.passed_of_execResult_ok hr
  have hn : s.operand.length = s.inLen.toNat := operand_length s
  dsimp only
  rw [hlen, ← hn]
  refine ⟨State.execResult_length_le_cap hr, ?_⟩
  cases i
  case pad => exact Except.ok.inj happly ▸ pad_length _
  case unpad => exact unpad_length happly
  case xor => exact xorOp_length happly
  case inc => exact incOp_length happly
  case ecbEnc => exact ecbEnc_length happly
  case ecbDec => exact ecbDec_length happly
  case cbcEnc => exact cbcEnc_length happly
  case cbcDec => exact cbcDec_length happly
  case ctrEnc => exact ctrEnc_length happly
  case ctrDec => exact ctrDec_length happly

end Sys2Proof.Machine

/-! The functions of the operations as such: sequences of blocks read byte by byte (rules R110 to R112), the laws of
`pad` and `unpad` (rules R104, R106), of `xor` (rule R160) and of the primitive (rule R10), and the counter of block
`i` (rule R142). -/

namespace Sys2Proof.Machine

/-! ### Blocks and bytes (rules R12, R110 to R112) -/

/-- Block `j` of an ungrouped list. -/
theorem bytesAt_ungroup {bs : List Block} {j : Nat} (hj : j < bs.length) :
    bytesAt 16 (ungroup bs) (16 * j) = bs[j] := by
  refine Vector.ext fun r hr => ?_
  rw [bytesAt_getElem _ _ _ _ hr, List.getD_eq_getElem?_getD, ungroup_getElem? bs j r hr hj]
  rfl

/-- Block `j` of the blocks `f 0, f 1, …`. -/
theorem bytesAt_flatMap_toList (f : Nat → Block) {m j : Nat} (hj : j < m) :
    bytesAt 16 ((List.range m).flatMap fun i => (f i).toList) (16 * j) = f j := by
  rw [← ungroup_map_range, bytesAt_ungroup (by simpa using hj), List.getElem_map, List.getElem_range]

/-- Byte `b` of the blocks `f 0, f 1, …`. -/
theorem flatMap_toList_getD (f : Nat → Block) {m b : Nat} (hb : b < 16 * m) :
    ((List.range m).flatMap fun i => (f i).toList).getD b 0 =
      (f (b / 16))[b % 16]'(Nat.mod_lt _ (by decide)) := by
  have hbyte := bytesAt_getElem 16 ((List.range m).flatMap fun i => (f i).toList) (16 * (b / 16)) (b % 16)
    (Nat.mod_lt _ (by decide))
  rw [Nat.div_add_mod] at hbyte
  rw [← hbyte]
  simp only [bytesAt_flatMap_toList f (show b / 16 < m by omega)]

/-- A block-aligned sequence is its blocks one after another (rule R112). -/
theorem ungroup_blocks {d : Bytes} (h : d.length % 16 = 0) :
    ungroup ((List.range (d.length / 16)).map fun j => bytesAt 16 d (16 * j)) = d := by
  rw [ungroup_map_range]
  refine List.ext_getElem (by rw [flatMap_toList_length fun j => bytesAt 16 d (16 * j)]; omega) fun b hb hb' => ?_
  rw [← List.getD_eq_getElem _ 0 hb, ← List.getD_eq_getElem _ 0 hb',
    flatMap_toList_getD (fun j => bytesAt 16 d (16 * j)) (by omega), bytesAt_getElem, Nat.div_add_mod]

/-- Settles O46. -/
theorem groupUngroupInverse : Obligations.GroupUngroupInverse := by
  refine ⟨fun x hx => group_of_unaligned hx, fun x hx => ?_, fun bs => ⟨?_, ungroup_length bs⟩⟩
  · exact ⟨_, group_of_aligned hx, ungroup_blocks hx, by rw [List.length_map, List.length_range]⟩
  · have hlen := ungroup_length bs
    rw [group_of_aligned (by omega)]
    refine congrArg _ (List.ext_getElem (by rw [List.length_map, List.length_range]; omega) fun j _ hj => ?_)
    rw [List.getElem_map, List.getElem_range, bytesAt_ungroup hj]

/-! ### The laws of `pad` and `unpad` (rules R104, R106) -/

theorem unpad_pad (x : Bytes) : unpad (pad x) = .ok x := by
  rw [pad_eq_append_replicate]
  exact unpad_append_replicate x (by omega) (by omega)

/-- `pad` puts back exactly what `unpad` has removed from a block-aligned sequence: of the paddings of 1 to 16 bytes
only one makes the length a multiple of 16. -/
theorem pad_eq_iff_of_unpad {d y : Bytes} (h : unpad d = .ok y) : pad y = d ↔ d.length % 16 = 0 := by
  obtain ⟨k, hpos, hle, rfl⟩ := eq_append_replicate_of_unpad h
  constructor
  · intro hpad
    rw [← hpad, pad_length]
    omega
  · intro haligned
    rw [List.length_append, List.length_replicate] at haligned
    have hk : 16 - y.length % 16 = k := by omega
    rw [pad_eq_append_replicate, hk]

/-- Settles O44. -/
theorem padUnpadLaws : Obligations.PadUnpadLaws := by
  refine ⟨fun x => ?_, fun d y => pad_eq_iff_of_unpad⟩
  have hlen := pad_length x
  refine ⟨by omega, by omega, unpad_pad x, fun hx => ⟨by omega, ?_⟩, by omega⟩
  rw [pad_eq_append_replicate, hx, ← hx, List.drop_left, hx]
  rfl

/-- A sequence that `unpad` accepts ends in a byte `v` from 1 to 16, after `v - 1` bytes of the same value. -/
theorem unpad_append_singleton {l y : Bytes} {v : Byte} (h : unpad (l ++ [v]) = .ok y) :
    1 ≤ v.toNat ∧ v.toNat ≤ 16 ∧ l = y ++ List.replicate (v.toNat - 1) v := by
  obtain ⟨k, hpos, hle, heq⟩ := eq_append_replicate_of_unpad h
  obtain ⟨k, rfl⟩ := Nat.exists_eq_add_of_le' hpos
  rw [List.replicate_succ', ← List.append_assoc] at heq
  obtain ⟨hl, hv⟩ := List.append_inj' heq rfl
  obtain rfl := List.singleton_inj.1 hv
  have hcount : (BitVec.ofNat 8 (k + 1)).toNat = k + 1 := by
    rw [BitVec.toNat_ofNat]
    omega
  rw [hcount]
  exact ⟨hpos, hle, hl⟩

/-- Settles O45: what `unpad` accepts ends in a consistent padding, so an accepted forgery is one. -/
theorem forgedPaddingRefused : Obligations.ForgedPaddingRefused := by
  intro x v
  refine ⟨fun hv => (unpad_answers _).resolve_left ?_, fun _ _ _ => (unpad_answers _).symm.imp_right ?_⟩
  · rintro ⟨y, hy⟩
    obtain ⟨hpos, hle, _⟩ := unpad_append_singleton hy
    rcases hv with rfl | hv
    · exact absurd hpos (by decide)
    · omega
  · rintro ⟨y, hy⟩
    obtain ⟨hpos, _, hl⟩ := unpad_append_singleton hy
    have hrest : (pad x).length - v.toNat = y.length := by
      have hlen := pad_length x
      have hdrop := congrArg List.length hl
      rw [List.length_dropLast, List.length_append, List.length_replicate] at hdrop
      omega
    rw [hrest, hl, List.drop_left]

/-! ### The laws of `xor` (rule R160) -/

theorem xorBlock_getElem (a b : Block) {j : Nat} (hj : j < 16) : (xorBlock a b)[j] = a[j] ^^^ b[j] := by
  simp [xorBlock]

theorem xorBlock_comm (a b : Block) : xorBlock a b = xorBlock b a :=
  Vector.ext fun j hj => by rw [xorBlock_getElem _ _ hj, xorBlock_getElem _ _ hj, BitVec.xor_comm]

theorem xorBlock_assoc (a b c : Block) : xorBlock (xorBlock a b) c = xorBlock a (xorBlock b c) :=
  Vector.ext fun j hj => by simp only [xorBlock_getElem _ _ hj, BitVec.xor_assoc]

theorem xorBlock_zeroBlock (a : Block) : xorBlock a zeroBlock = a :=
  Vector.ext fun j hj => by
    rw [xorBlock_getElem _ _ hj, zeroBlock, Vector.getElem_replicate]
    exact BitVec.xor_zero

/-- `xor` with one block is its own inverse. -/
theorem xorBlock_cancel_right (a b : Block) : xorBlock (xorBlock a b) b = a := by
  rw [xorBlock_assoc, xorBlock_self, xorBlock_zeroBlock]

/-- Settles O47. -/
theorem xorLaws : Obligations.XorLaws := fun a b c =>
  ⟨fun j => xorBlock_getElem a b j.isLt, xorBlock_comm a b, xorBlock_cancel_right a b, xorBlock_self a,
    xorBlock_zeroBlock a, xorBlock_assoc a b c⟩

/-! ### The primitive (rule R10) -/

theorem enc_injective (c : Cipher) (k : Key) : Function.Injective fun x => c.enc x k :=
  Function.LeftInverse.injective (g := fun y => c.dec y k) fun x => c.dec_enc x k

/-- There are finitely many Blocks: a Block is a function from 16 indices to bytes. -/
theorem finite_block : Finite Block :=
  Finite.of_injective (fun (b : Block) (j : Fin 16) => b[j]) fun _ _ h =>
    Vector.ext fun j hj => congrFun h ⟨j, hj⟩

/-- Settles O31: an injective function on a finite set is onto, so every `y` is `E` of some `x`. -/
theorem cipherIsBijective : Obligations.CipherIsBijective := by
  refine fun c k => ⟨fun x y h => enc_injective c k h, fun y => ?_⟩
  have hfinite := finite_block
  obtain ⟨x, rfl⟩ := Finite.surjective_of_injective (enc_injective c k) y
  exact congrArg (c.enc · k) (c.dec_enc x k)

/-! ### The counter of a block (rule R142) -/

/-- Settles O49. -/
theorem counterOfBlockIndex : Obligations.CounterOfBlockIndex := by
  intro i
  have hcounter : inc^[i] counterZero = be64inv (i % 2 ^ 64) := by
    rw [iterate_inc_counterZero, be64inv_mod]
  refine ⟨hcounter, ?_, fun nonce => ?_⟩
  · exact (congrArg be64 (iterate_inc_counterZero i)).trans (be64_be64inv i)
  · rw [hcounter, counterBlock, Vector.toList_append]

end Sys2Proof.Machine

/-! The modes: the leak of ECB (rule R123), the round trips (rules R124, R136, R149), on the functions and on the
machine, and what two draws, a changed ciphertext byte or a reused nonce do (sections on non-determinism and
malleability of `43_cbc.md` and `44_ctr.md`). -/

namespace Sys2Proof.Machine

/-! ### A result of CBC or CTR: one block, then the cipher blocks (rules R131, R143) -/

theorem bytesAt_append_left {p l : Bytes} {n a : Nat} (h : a + n ≤ p.length) :
    bytesAt n (p ++ l) a = bytesAt n p a :=
  Vector.ext fun j hj => by
    rw [bytesAt_getElem _ _ _ _ hj, bytesAt_getElem _ _ _ _ hj, List.getD_append _ _ _ _ (by omega)]

theorem bytesAt_append_right (p l : Bytes) (n a : Nat) : bytesAt n (p ++ l) (p.length + a) = bytesAt n l a :=
  Vector.ext fun j hj => by
    rw [bytesAt_getElem _ _ _ _ hj, bytesAt_getElem _ _ _ _ hj, List.getD_append_right _ _ _ _ (by omega),
      Nat.add_assoc, Nat.add_sub_cancel_left]

/-- A sequence of `n` bytes read as such. -/
theorem bytesAt_toList_zero {n : Nat} (v : ByteVec n) : bytesAt n v.toList 0 = v :=
  Vector.ext fun j hj => by simp [hj]

/-- Block `i + 1` of a first block `p` and the cipher blocks `C 0, C 1, …`. -/
theorem bytesAt_prefixed {p : Bytes} (hp : p.length = 16) (C : Nat → Block) {m i : Nat} (hi : i < m) :
    bytesAt 16 (p ++ (List.range m).flatMap fun i => (C i).toList) (16 * (i + 1)) = C i := by
  rw [show 16 * (i + 1) = p.length + 16 * i by omega, bytesAt_append_right, bytesAt_flatMap_toList C hi]

/-- Blocks that are those of a padded plaintext are unpadded to the plaintext. -/
theorem unpad_flatMap_of_eq_pad {x : Bytes} {P : Nat → Block} {m : Nat} (hm : m = x.length / 16 + 1)
    (h : ∀ i, i < m → P i = bytesAt 16 (pad x) (16 * i)) :
    unpad ((List.range m).flatMap fun i => (P i).toList) = .ok x := by
  have hlen := pad_length x
  have hblocks : (List.range m).map P =
      (List.range ((pad x).length / 16)).map fun i => bytesAt 16 (pad x) (16 * i) := by
    rw [show (pad x).length / 16 = m by omega]
    exact List.map_congr_left fun i hi => h i (List.mem_range.1 hi)
  rw [← ungroup_map_range, hblocks, ungroup_blocks (by omega), unpad_pad]

/-! ### ECB (rules R123, R124) -/

/-- Two cipher blocks are equal exactly when the padded plaintext blocks are, for `E` is injective. -/
theorem ecbEnc_blocks_eq_iff (c : Cipher) (x : Bytes) (key : Key) : ∃ out, ecbEnc c x key = .ok out ∧
    ∀ i j, i < x.length / 16 + 1 → j < x.length / 16 + 1 →
      (bytesAt 16 out (16 * i) = bytesAt 16 out (16 * j) ↔
        bytesAt 16 (pad x) (16 * i) = bytesAt 16 (pad x) (16 * j)) := by
  refine ⟨_, ecbEnc_eq_flatMap c x key, fun i j hi hj => ?_⟩
  rw [bytesAt_flatMap_toList (fun j => c.enc (bytesAt 16 (pad x) (16 * j)) key) hi,
    bytesAt_flatMap_toList (fun j => c.enc (bytesAt 16 (pad x) (16 * j)) key) hj]
  exact (enc_injective c key).eq_iff

/-- ECB_ENC takes no draw, and what it does does not depend on the draw count. -/
theorem exec_ecbEnc_draws {s t : State} (h : exec .ecbEnc s = .next t) :
    t.draws = s.draws ∧ ∀ d, exec .ecbEnc { s with draws := d } = .next { t with draws := d } := by
  have hdraw : ¬ (Instr.ecbEnc = .cbcEnc ∨ Instr.ecbEnc = .ctrEnc) := by decide
  obtain rfl := Host.Outcome.next.inj ((exec_of_no_draw s hdraw).symm.trans h)
  refine ⟨State.complete_draws _ _, fun d => ?_⟩
  have hresult : { s with draws := d }.execResult .ecbEnc = s.execResult .ecbEnc := rfl
  rw [exec_of_no_draw _ hdraw, hresult]
  cases s.execResult .ecbEnc <;> rfl

/-- Settles O50: the third part is the second for the three blocks of one plaintext. -/
theorem ecbEqualBlocksLeak : Obligations.EcbEqualBlocksLeak := by
  refine ⟨fun s t => exec_ecbEnc_draws, ecbEnc_blocks_eq_iff, fun c => ?_⟩
  obtain ⟨out, hout, hleak⟩ := ecbEnc_blocks_eq_iff c (List.replicate 32 0x41) (Vector.replicate 16 0)
  rw [List.length_replicate] at hleak
  refine ⟨out, hout, ecbEnc_length hout, (hleak 0 1 (by decide) (by decide)).2 (by decide),
    mt (hleak 2 0 (by decide) (by decide)).1 (by decide), mt (hleak 2 1 (by decide) (by decide)).1 (by decide)⟩

/-- Settles O51: `D` of block `i` of the result is block `i` of the padded plaintext. -/
theorem ecbRoundTrip : Obligations.EcbRoundTrip := by
  intro c x key
  have hlen := flatMap_toList_length (fun j => c.enc (bytesAt 16 (pad x) (16 * j)) key) (x.length / 16 + 1)
  refine ⟨_, ecbEnc_eq_flatMap c x key, ?_⟩
  rw [ecbDec_eq_unpad_flatMap c key (by omega) (by omega)]
  refine unpad_flatMap_of_eq_pad (by omega) fun i hi => ?_
  rw [bytesAt_flatMap_toList (fun j => c.enc (bytesAt 16 (pad x) (16 * j)) key) (by omega), c.dec_enc]

/-! ### The round trips of CBC and CTR (rules R136, R149) -/

/-- The block before cipher block `i` in a result of CBC is the IV or cipher block `i - 1`. -/
theorem bytesAt_iv_append (iv : Block) (C : Nat → Block) {m i : Nat} (hi : i < m) :
    bytesAt 16 (iv.toList ++ (List.range m).flatMap fun i => (C i).toList) (16 * i) =
      if i = 0 then iv else C (i - 1) := by
  cases i with
  | zero => exact (bytesAt_append_left (by simp)).trans (bytesAt_toList_zero iv)
  | succ i => exact bytesAt_prefixed Vector.length_toList C (Nat.lt_of_succ_lt hi)

/-- Settles O52: `D` of cipher block `i` is the padded plaintext block xored with the block before, and the second
xor takes that away. -/
theorem cbcRoundTrip : Obligations.CbcRoundTrip := by
  intro c x key iv
  have hlen := iv_append_blocks_length iv
    (cbcCipherBlock c key iv fun j => bytesAt 16 (pad x) (16 * j)) (x.length / 16 + 1)
  refine ⟨_, cbcEnc_eq_flatMap c x key iv, ?_⟩
  rw [cbcDec_eq_unpad_flatMap c key (by omega) (by omega)]
  refine unpad_flatMap_of_eq_pad (by omega) fun i hi => ?_
  rw [bytesAt_prefixed Vector.length_toList _ (by omega), bytesAt_iv_append iv _ (by omega), cbcCipherBlock_eq,
    c.dec_enc, xorBlock_cancel_right]

theorem nonceBlock_length (nonce : Half) : (nonce.toList ++ List.replicate 8 (0 : Byte)).length = 16 := by
  rw [List.length_append, Vector.length_toList, List.length_replicate]

/-- The nonce of a result of CTR is its first 8 bytes. -/
theorem bytesAt_nonce_append (nonce : Half) (l l' : Bytes) : bytesAt 8 (nonce.toList ++ l ++ l') 0 = nonce := by
  rw [List.append_assoc]
  exact (bytesAt_append_left (by simp)).trans (bytesAt_toList_zero nonce)

/-- Settles O53: the same keystream block, an `E` of the nonce and the index alone, is xored twice. -/
theorem ctrRoundTrip : Obligations.CtrRoundTrip := by
  intro c c' x key nonce henc
  have hlen := nonceBlock_append_blocks_length nonce
    (fun i => xorBlock (bytesAt 16 (pad x) (16 * i)) (c.enc (nonce ++ be64inv i) key)) (x.length / 16 + 1)
  refine ⟨_, ctrEnc_eq_flatMap c x key nonce, ?_⟩
  rw [ctrDec_eq_unpad_flatMap c' key (by omega) (by omega), bytesAt_nonce_append]
  refine unpad_flatMap_of_eq_pad (by omega) fun i hi => ?_
  rw [bytesAt_prefixed (nonceBlock_length nonce) (fun i =>
    xorBlock (bytesAt 16 (pad x) (16 * i)) (c.enc (nonce ++ be64inv i) key)) (by omega), henc, xorBlock_cancel_right]

/-! ### The round trips on the machine -/

/-- Operation `inverse` undoes `forward`: it needs no key that `forward` does not, asks for no more room than its
operand, and its function takes every result of `forward` back under the same key. -/
structure Undoes (inverse forward : Instr) : Prop where
  isMode : inverse.isMode = true → forward.isMode = true
  needOut : ∀ n, needOut inverse n = n
  applyOp : ∀ (s t : State) (out : Bytes), s.applyOp forward = .ok out → t.operand = out → t.key = s.key →
    t.applyOp inverse = .ok s.operand

theorem unpad_undoes_pad : Undoes .unpad .pad where
  isMode := nofun
  needOut _ := rfl
  applyOp s t out hout hoperand _ := by
    obtain rfl := Except.ok.inj hout
    exact (congrArg unpad hoperand).trans (unpad_pad s.operand)

/-- A round trip of the functions of two mode operations makes the one undo the other. -/
theorem undoes_of_roundTrip {inverse forward : Instr} {enc : State → Result} {dec : Bytes → Key → Result}
    (hmode : forward.isMode = true) (hneed : ∀ n, needOut inverse n = n)
    (henc : ∀ s : State, s.applyOp forward = enc s) (hdec : ∀ t : State, t.applyOp inverse = dec t.operand t.key)
    (h : ∀ s : State, ∃ y, enc s = .ok y ∧ dec y s.key = .ok s.operand) : Undoes inverse forward where
  isMode _ := hmode
  needOut := hneed
  applyOp s t out hout hoperand hkey := by
    obtain ⟨y, hy, hback⟩ := h s
    obtain rfl := Except.ok.inj (hy.symm.trans ((henc s).symm.trans hout))
    rw [hdec, hoperand, hkey, hback]

theorem ecbDec_undoes_ecbEnc : Undoes .ecbDec .ecbEnc :=
  undoes_of_roundTrip rfl (fun _ => rfl) (fun _ => rfl) (fun _ => rfl) fun s =>
    ecbRoundTrip Config.cipher s.operand s.key

theorem cbcDec_undoes_cbcEnc : Undoes .cbcDec .cbcEnc :=
  undoes_of_roundTrip rfl (fun _ => rfl) (fun _ => rfl) (fun _ => rfl) fun s =>
    cbcRoundTrip Config.cipher s.operand s.key (Config.rand s.draws 16)

theorem ctrDec_undoes_ctrEnc : Undoes .ctrDec .ctrEnc :=
  undoes_of_roundTrip rfl (fun _ => rfl) (fun _ => rfl) (fun _ => rfl) fun s =>
    ctrRoundTrip Config.cipher Config.cipher s.operand s.key (Config.rand s.draws 8) fun _ _ => rfl

/-- An operation that passes the common checks, and whose function succeeds, completes with its answer. -/
theorem exec_of_applyOp_ok {t : State} {i : Instr} {out : Bytes}
    (hfit : exceedsCap Config.cap i t.operandLen = false) (hkey : i.isMode = true → t.keyLen = 16)
    (happly : t.applyOp i = .ok out) : ∃ d, exec i t = .next ({ t with draws := d }.completeOk out) := by
  obtain ⟨d, hd⟩ := exec_eq_complete i t
  have hresult : t.execResult i = .ok out := by
    rw [t.execResult_eq_checked, State.checked_of_fits hfit, happly,
      if_neg fun h => (keyLen_toNat_ne_iff _).1 h.2 (hkey h.1)]
  exact ⟨d, by rw [hd, hresult, State.complete_ok]⟩

/-- A state whose `IN` reads as the sequence `out`, of the length in `IN_LEN`, has `out` as its operand. -/
theorem operand_eq_of_reads {t : State} {out : Bytes} (hlen : t.inLen.toNat = out.length)
    (h : ∀ j, j < out.length → t.inBuf.read j = out.getD j 0) : t.operand = out := by
  refine List.ext_getElem ((operand_length t).trans hlen) fun j hj hj' => ?_
  rw [operand_getElem, h j hj', List.getD_eq_getElem _ _ hj']

theorem key_eq_of_reads {s t : State} (h : ∀ j, j < 16 → t.keyBuf.read j = s.keyBuf.read j) : t.key = s.key :=
  Vector.ext fun j hj => by rw [key_getElem _ _ hj, key_getElem _ _ hj, h j hj]

/-- The round trip on the machine, for any two operations of which one undoes the other. -/
theorem Undoes.exec_inverse {inverse forward : Instr} (hundo : Undoes inverse forward) {s s' t : State}
    (hexec : exec forward s = .next s') (hstatus : s'.status = statusDone) (hinLen : t.inLen = s'.outLen)
    (hin : ∀ j, j < s'.outLen.toNat → t.inBuf.read j = s'.outBuf.read j) (hkeyLen : t.keyLen = s.keyLen)
    (hkey : ∀ j, j < 16 → t.keyBuf.read j = s.keyBuf.read j) :
    ∃ d, exec inverse t = .next ({ t with draws := d }.completeOk s.operand) := by
  obtain ⟨out, hresult, hlen, hbuf⟩ := exec_ok hexec hstatus
  obtain ⟨_, hkey16, happly⟩ := State.passed_of_execResult_ok hresult
  have htlen : t.inLen.toNat = out.length := (congrArg BitVec.toNat hinLen).trans hlen
  have hoperand : t.operand = out := operand_eq_of_reads htlen fun j hj => by
    rw [hin j (by omega), hbuf, Memory.read_ofBytes]
  have hfit : exceedsCap Config.cap inverse t.operandLen = false := by
    have hcap : t.operandLen ≤ Config.cap := htlen.le.trans (State.execResult_length_le_cap hresult)
    rw [Bool.eq_false_iff, ne_eq, exceedsCap_iff, hundo.needOut, or_self, Nat.not_lt]
    exact hcap
  exact exec_of_applyOp_ok hfit (fun hmode => hkeyLen.trans (hkey16 (hundo.isMode hmode)))
    (hundo.applyOp s t out happly hoperand (key_eq_of_reads hkey))

/-- The bytes of the operand, then zeros. -/
theorem operand_getD (s : State) (j : Nat) :
    s.operand.getD j 0 = if j < s.inLen.toNat then s.inBuf.read j else 0 := by
  have hlen : s.operand.length = s.inLen.toNat := operand_length s
  split
  · next hj => rw [List.getD_eq_getElem _ _ (hj.trans_eq hlen.symm), operand_getElem]
  · next hj => exact List.getD_eq_default _ _ (by omega)

/-- Settles O54: each of the four pairs undoes, and the completion leaves the original operand. -/
theorem machineRoundTrip : Obligations.MachineRoundTrip := by
  intro forward inverse hpair s s' t hexec hstatus hinLen hin hkeyLen hkey
  have hundo : Undoes inverse forward := by
    simp only [List.mem_cons, List.not_mem_nil, or_false, Prod.mk.injEq] at hpair
    rcases hpair with ⟨rfl, rfl⟩ | ⟨rfl, rfl⟩ | ⟨rfl, rfl⟩ | ⟨rfl, rfl⟩
    · exact unpad_undoes_pad
    · exact ecbDec_undoes_ecbEnc
    · exact cbcDec_undoes_cbcEnc
    · exact ctrDec_undoes_ctrEnc
  obtain ⟨d, hd⟩ := hundo.exec_inverse hexec hstatus hinLen hin hkeyLen hkey
  have hread (j : Nat) : (Memory.ofBytes 0 s.operand).read j = if j < s.inLen.toNat then s.inBuf.read j else 0 :=
    (Memory.read_ofBytes _ j).trans (operand_getD s j)
  refine ⟨_, hd, rfl, ?_, fun j hj => (hread j).trans (if_pos hj),
    fun j hj => (hread j).trans (if_neg (Nat.not_lt.2 hj))⟩
  rw [State.completeOk_outLen, operand_length]
  exact (BitVec.ofNat_toNat ..).trans (BitVec.setWidth_eq _)

/-! ### Two draws (sections on non-determinism) -/

/-- Settles O55: the result begins with the draw. -/
theorem resultsDifferExactlyWhenDrawsDiffer : Obligations.ResultsDifferExactlyWhenDrawsDiffer := by
  refine ⟨fun c x key iv iv' => ⟨fun h => ?_, congrArg _⟩, fun c x key nonce nonce' => ⟨fun h => ?_, congrArg _⟩⟩
  · rw [cbcEnc_eq_flatMap, cbcEnc_eq_flatMap] at h
    exact Vector.toList_inj.1 (List.append_inj_left (Except.ok.inj h) (by simp))
  · rw [ctrEnc_eq_flatMap, ctrEnc_eq_flatMap] at h
    have hblock := List.append_inj_left (Except.ok.inj h) (by simp)
    exact Vector.toList_inj.1 (List.append_inj_left hblock (by simp))

/-! ### Exclusive or of bytes -/

theorem xor_right_comm (a b k : Byte) : a ^^^ b ^^^ k = a ^^^ k ^^^ b := by
  rw [BitVec.xor_assoc, BitVec.xor_comm b, BitVec.xor_assoc]

/-- A byte xored into both of two bytes cancels. -/
theorem xor_cancel_common (a b k : Byte) : a ^^^ k ^^^ (b ^^^ k) = a ^^^ b := by
  rw [xor_right_comm, BitVec.xor_assoc, BitVec.xor_assoc, BitVec.xor_self, BitVec.xor_zero]

/-! ### Malleability (sections 3 and 4 of `44_ctr.md`, `43_cbc.md`) -/

theorem getD_modify (d : Bytes) (j : Nat) (f : Byte → Byte) {b : Nat} (hb : b < d.length) :
    (d.modify j f).getD b 0 = if j = b then f (d.getD b 0) else d.getD b 0 := by
  rw [List.getD_eq_getElem _ _ (by rwa [List.length_modify]), List.getD_eq_getElem _ _ hb, List.getElem_modify]

/-- A slice that does not hold the changed byte. -/
theorem bytesAt_modify_of_outside (d : Bytes) {j : Nat} (f : Byte → Byte) {n a : Nat}
    (h : j < a ∨ a + n ≤ j) : bytesAt n (d.modify j f) a = bytesAt n d a := by
  refine Vector.ext fun r hr => ?_
  rw [bytesAt_getElem _ _ _ _ hr, bytesAt_getElem _ _ _ _ hr, List.getD_eq_getElem?_getD,
    List.getD_eq_getElem?_getD, List.getElem?_modify_ne _ _ (by omega)]

theorem modify_append_of_lt {l : Bytes} (l' : Bytes) {j : Nat} (f : Byte → Byte) (h : j < l.length) :
    (l ++ l').modify j f = l.modify j f ++ l' := by
  induction l generalizing j with
  | nil => exact absurd h (Nat.not_lt_zero j)
  | cons b l ih =>
    cases j with
    | zero => rfl
    | succ j => rw [List.cons_append, List.modify_succ_cons, ih (Nat.lt_of_succ_lt_succ h)]; rfl

/-- A change of a byte of the message, not of its padding, is a change of the message. -/
theorem unpad_modify {d x : Bytes} {j : Nat} (f : Byte → Byte) (h : unpad d = .ok x) (hj : j < x.length) :
    unpad (d.modify j f) = .ok (x.modify j f) := by
  obtain ⟨k, hpos, hle, rfl⟩ := eq_append_replicate_of_unpad h
  rw [modify_append_of_lt _ f hj, unpad_append_replicate _ hpos hle]

/-- Blocks that differ in byte `j` of their sequence alone. -/
theorem flatMap_toList_modify {P Q : Nat → Block} {m j : Nat} {f : Byte → Byte}
    (h : ∀ i r (hr : r < 16), i < m → (Q i)[r] = if j = 16 * i + r then f (P i)[r] else (P i)[r]) :
    ((List.range m).flatMap fun i => (Q i).toList) =
      ((List.range m).flatMap fun i => (P i).toList).modify j f := by
  refine List.ext_getElem (by rw [List.length_modify, flatMap_toList_length, flatMap_toList_length]) fun b hb hb' => ?_
  have hlt : b < 16 * m := by rwa [flatMap_toList_length] at hb
  rw [← List.getD_eq_getElem _ 0 hb, ← List.getD_eq_getElem _ 0 hb',
    getD_modify _ _ _ (by rwa [List.length_modify] at hb'), flatMap_toList_getD _ hlt, flatMap_toList_getD _ hlt,
    h _ _ _ (by omega), Nat.div_add_mod]

/-- Settles O56: byte `j` of the IV is xored into byte `j` of the first block, and into nothing else. -/
theorem cbcIvMalleable : Obligations.CbcIvMalleable := by
  intro c data x key j m h hj hx
  obtain ⟨hlong, haligned⟩ := cbcDec_ok_aligned h
  rw [cbcDec_eq_unpad_flatMap c key hlong haligned] at h
  rw [cbcDec_eq_unpad_flatMap c key (by rwa [List.length_modify]) (by rwa [List.length_modify]), List.length_modify,
    ← unpad_modify _ h hx]
  refine congrArg unpad (flatMap_toList_modify fun i r hr hi => ?_)
  rw [bytesAt_modify_of_outside data _ (a := 16 * (i + 1)) (by omega), xorBlock_getElem _ _ hr,
    xorBlock_getElem _ _ hr, bytesAt_getElem _ _ _ _ hr, bytesAt_getElem _ _ _ _ hr, getD_modify _ _ _ (by omega)]
  split
  · exact (BitVec.xor_assoc ..).symm
  · rfl

/-- Settles O57: cipher byte `16 + j` is xored into plaintext byte `j` and into nothing else; bytes 8 to 15 are in no
slice that is read. -/
theorem ctrMalleable : Obligations.CtrMalleable := by
  intro c data x key m h
  obtain ⟨hlong, haligned⟩ := ctrDec_ok_aligned h
  rw [ctrDec_eq_unpad_flatMap c key hlong haligned] at h
  have hdec (j : Nat) := ctrDec_eq_unpad_flatMap c (d := data.modify j (· ^^^ m)) key
    (by rwa [List.length_modify]) (by rwa [List.length_modify])
  refine ⟨fun j hx => ?_, fun j hj hj' => ?_⟩
  · rw [hdec, List.length_modify, ← unpad_modify _ h hx, bytesAt_modify_of_outside data _ (a := 0) (by omega)]
    refine congrArg unpad (flatMap_toList_modify fun i r hr hi => ?_)
    rw [xorBlock_getElem _ _ hr, xorBlock_getElem _ _ hr, bytesAt_getElem _ _ _ _ hr, bytesAt_getElem _ _ _ _ hr,
      getD_modify _ _ _ (by omega)]
    simp only [show 16 + j = 16 * (i + 1) + r ↔ j = 16 * i + r by omega]
    split
    · exact xor_right_comm ..
    · rfl
  · rw [hdec, List.length_modify, bytesAt_modify_of_outside data _ (a := 0) (by omega), ← h]
    refine congrArg unpad (List.flatMap_congr fun i _ => ?_)
    rw [bytesAt_modify_of_outside data _ (by omega)]

/-! ### Nonce reuse (section 4 of `44_ctr.md`) -/

/-- Cipher byte `j` of a result of CTR is padded plaintext byte `j` xored with a keystream byte that depends on the
nonce, the key and the index alone. -/
theorem ctrEnc_getD (c : Cipher) (x : Bytes) (key : Key) (nonce : Half) : ∃ y, ctrEnc c x key nonce = .ok y ∧
    ∀ j, j < (pad x).length → y.getD (16 + j) 0 =
      (pad x).getD j 0 ^^^ (c.enc (nonce ++ be64inv (j / 16)) key)[j % 16]'(Nat.mod_lt _ (by decide)) := by
  refine ⟨_, ctrEnc_eq_flatMap c x key nonce, fun j hj => ?_⟩
  have hlen := pad_length x
  have hnonce := nonceBlock_length nonce
  rw [List.getD_append_right _ _ _ _ (by omega), hnonce, Nat.add_sub_cancel_left, flatMap_toList_getD (fun i =>
    xorBlock (bytesAt 16 (pad x) (16 * i)) (c.enc (nonce ++ be64inv i) key)) (by omega), xorBlock_getElem,
    bytesAt_getElem, Nat.div_add_mod]

/-- Settles O58: the two keystream bytes are the same and cancel. -/
theorem ctrNonceReuseCancelsKeystream : Obligations.CtrNonceReuseCancelsKeystream := by
  intro c x x' key nonce
  obtain ⟨y, hy, hbyte⟩ := ctrEnc_getD c x key nonce
  obtain ⟨y', hy', hbyte'⟩ := ctrEnc_getD c x' key nonce
  refine ⟨y, y', hy, hy', fun j hj hj' => ?_⟩
  rw [hbyte j hj, hbyte' j hj', xor_cancel_common]

end Sys2Proof.Machine
